-- ==== Sys2Proof/Word.lean ====
section
/-! DEFINITION. The data widths of the block (R8, R12, R47, R53, R62). -/

namespace Sys2Proof

/-- A bit of R12: source "true" is 1 and "false" is 0. Every datum of the block is one bit wide (R8).
`NOT`, `AND`, `XOR` of R12 are `!`, `&&`, `xor`. DESIGN CHOICE, safe (log entry 10). -/
abbrev Bit := Bool

/-- The event word `w[2:0]` of format `EV` (R47). -/
abbrev EventWord := BitVec 3

/-- The code on the output command port `out_cmd` (R53). -/
abbrev CommandCode := BitVec 2

/-- The status word `{armed, tone_en, prev_in, out_level}` (R62). -/
abbrev StatusWord := BitVec 4

end Sys2Proof
end

