-- ==== Sys2Proof/Syntax.lean ====
section
/-! DEFINITION. The operations of spec/opcode_table.json: the events of format `EV` (R46) and the output commands of
format `OUTCMD` (R53). -/

namespace Sys2Proof

/-- One constructor per row of spec/opcode_table.json. -/
inductive Instr where
  /-- RESET, word `000` (R49, R98). -/
  | reset
  /-- ARM, word `010`: the source's `register_periodic` (R51, R99). -/
  | arm
  /-- TICK, word `10i`: one invocation of `on_tick`; its operand is the sample `i` of step 1 (R50, R63). -/
  | tick (level : Bit)
  /-- NONE, code `00`: no call of the output capability (R93). -/
  | cmdNone
  /-- SET_OFF, code `01`: the source's `set_off()` (R94). -/
  | cmdSetOff
  /-- TOGGLE, code `10`: the source's `toggle()` (R95). -/
  | cmdToggle
  deriving DecidableEq, Repr

/-- The three commands the output port carries (R53, R96). -/
inductive OutCmd where
  | none
  | setOff
  | toggle
  deriving DecidableEq, Repr

/-- The two refusal reasons of a reserved event word (R52). -/
inductive RefuseReason where
  /-- `001` and `011`: a nonzero reserved bit on RESET or ARM. -/
  | reservedBit
  /-- `110` and `111`: `op = 11`. -/
  | reservedOp
  deriving DecidableEq, Repr

/-- Whether the row is an event (format `EV`); the other rows are commands of the output port (format `OUTCMD`). -/
def Instr.isEvent : Instr → Bool
  | .reset => true
  | .arm => true
  | .tick _ => true
  | .cmdNone => false
  | .cmdSetOff => false
  | .cmdToggle => false

end Sys2Proof
end

