-- ==== Sys2Proof/WellFormed.lean ====
section
/-! DEFINITION. The checks on raw words: which fields of an event word and which command code have a meaning (R48, R52, R53).
Every term of `Instr` is well formed by construction: its only operand is the sample bit of a TICK, and both values are
legal (R50, R88). The checks are therefore made on the fields of a word, before there is an `Instr`. -/

namespace Sys2Proof

/-- The two fields of an event word (R47). -/
structure EventFields where
  /-- `op = w[2:1]`. -/
  op : BitVec 2
  /-- `i = w[0]`. -/
  i : Bit
  deriving DecidableEq, Repr

/-- The check of R48 and R52: `op` first, then `w[0]` for RESET and ARM. -/
def EventFields.check (f : EventFields) : Option RefuseReason :=
  if f.op = 0b11#2 then some .reservedOp
  else if f.op ≠ 0b10#2 ∧ f.i = true then some .reservedBit
  else none

/-- The fields have a meaning. -/
def EventFields.wellFormed (f : EventFields) : Bool := f.check = none

/-- `out_cmd = 11` is reserved and never driven (R53, R54). -/
def CommandCode.wellFormed (c : CommandCode) : Bool := c ≠ 0b11#2

end Sys2Proof
end

