-- ==== Sys2Proof/Decode.lean ====
section
/-! DEFINITION. The decoder of R48, R52 and R53, then the encoder of R49 to R53, the reading of a run as consecutive
3-bit words (R56), and the host's entry to the decoder. -/

namespace Sys2Proof

/-- What a word of either format decodes to. -/
inductive Decoded where
  | instr (i : Instr)
  /-- A reserved event word, with its reason (R52). -/
  | refuse (r : RefuseReason)
  /-- The reserved command code `11` (R53, R54). -/
  | reservedCommand
  deriving DecidableEq, Repr

/-- `op = w[2:1]` and `i = w[0]` (R47, R55). -/
def EventWord.fields (w : EventWord) : EventFields :=
  { op := w.extractLsb' 1 2, i := w.getLsbD 0 }

/-- The event of checked fields: the opcode map of R48. -/
def EventFields.toInstr (f : EventFields) : Instr :=
  if f.op = 0b00#2 then .reset else if f.op = 0b01#2 then .arm else .tick f.i

/-- The event decoder: total over the eight words (R48, R61). -/
def decodeEvent (w : EventWord) : Except RefuseReason Instr :=
  match w.fields.check with
  | some r => .error r
  | none => .ok w.fields.toInstr

/-- The command that a code on `out_cmd` names, none for the reserved `11` (R53, R54). -/
def decodeCommand (c : CommandCode) : Option OutCmd :=
  if c = 0b00#2 then some .none
  else if c = 0b01#2 then some .setOff
  else if c = 0b10#2 then some .toggle
  else none

/-- The row of spec/opcode_table.json that a command is. -/
def OutCmd.toInstr : OutCmd → Instr
  | .none => .cmdNone
  | .setOff => .cmdSetOff
  | .toggle => .cmdToggle

/-- A word of one of the two formats. The formats are told apart by the port a word stands on: `EV` words come in as
events, `OUTCMD` codes go out on `out_cmd`. -/
inductive CodeWord where
  | event (w : EventWord)
  | command (c : CommandCode)
  deriving DecidableEq, Repr

/-- The decoder over both formats, total, rejecting by name. -/
def decode : CodeWord → Decoded
  | .event w =>
    match decodeEvent w with
    | .ok i => .instr i
    | .error r => .refuse r
  | .command c =>
    match decodeCommand c with
    | some k => .instr k.toInstr
    | none => .reservedCommand

/-- RESET has the word `000` (R49). -/
def resetWord : EventWord := 0b000#3

/-- ARM has the word `010` (R51). -/
def armWord : EventWord := 0b010#3

/-- TICK has the word `10i` (R50). -/
def tickWord (i : Bit) : EventWord := if i then 0b101#3 else 0b100#3

/-- The code that a command puts on `out_cmd` (R53). -/
def OutCmd.code : OutCmd → CommandCode
  | .none => 0b00#2
  | .setOff => 0b01#2
  | .toggle => 0b10#2

/-- The encoder: the word of each row of spec/opcode_table.json, in its format (R49 to R53). -/
def encode : Instr → CodeWord
  | .reset => .event resetWord
  | .arm => .event armWord
  | .tick i => .event (tickWord i)
  | .cmdNone => .command OutCmd.none.code
  | .cmdSetOff => .command OutCmd.setOff.code
  | .cmdToggle => .command OutCmd.toggle.code

/-- The three bits of a word in the order they are printed, `w[2]` first (R56; DEDUCED, log entry 11). -/
def EventWord.bits (w : EventWord) : List Bit := [w.getLsbD 2, w.getLsbD 1, w.getLsbD 0]

/-- The word of three bits, `w[2]` first. -/
def wordOfBits (b2 b1 b0 : Bit) : EventWord :=
  BitVec.ofBool b2 ++ BitVec.ofBool b1 ++ BitVec.ofBool b0

/-- A run written as one string of bits (R56). -/
def joinWords : List EventWord → List Bit
  | [] => []
  | w :: ws => w.bits ++ joinWords ws

/-- A run read as consecutive 3-bit words; none where one or two bits are left over (R56). -/
def splitWords : List Bit → Option (List EventWord)
  | [] => some []
  | b2 :: b1 :: b0 :: rest => (splitWords rest).map (wordOfBits b2 b1 b0 :: ·)
  | _ => none

/-- The event words of a list of instructions; none where one of them is not an event. -/
def encodeEvents : List Instr → Option (List EventWord)
  | [] => some []
  | i :: is =>
    match encode i with
    | .event w => (encodeEvents is).map (w :: ·)
    | .command _ => none

/-- The events of a list of event words; the first refusal stops the reading (R52). -/
def decodeEvents : List EventWord → Except RefuseReason (List Instr)
  | [] => .ok []
  | w :: ws =>
    match decodeEvent w with
    | .error r => .error r
    | .ok i =>
      match decodeEvents ws with
      | .error r => .error r
      | .ok is => .ok (i :: is)

/-- The host's numbering of spec/opcode_table.json. A row of 2 bits is an `OUTCMD` code; every other row is an `EV` word,
so 8 bits (a row of 2 or 3 bits in whole bytes) are read as an event word. Bits above the word make it no word of the
table. DESIGN CHOICE, safe (log entry 6). -/
def decodeTableWord (nbits w : Nat) : Option Instr :=
  if nbits ≤ 2 then
    if w < 4 then (decodeCommand (BitVec.ofNat 2 w)).map OutCmd.toInstr else none
  else if w < 8 then
    match decodeEvent (BitVec.ofNat 3 w) with
    | .ok i => some i
    | .error _ => none
  else none

end Sys2Proof
end

