-- ==== Sys2Proof/Machine/State.lean ====
section
/-! DEFINITION. The state record of R14 with the output port, the outcomes' reasons, and the state after reset (R131, R132). -/

namespace Sys2Proof.Machine

/-- The model's fault codes (R108, R109, R110). -/
inductive FaultCode where
  /-- Code 1 (R108). -/
  | tickBeforeArm
  /-- Code 2 (R109). -/
  | rearm
  /-- Code 3, reserved for a model that splits a TICK into steps (R110). -/
  | overlap
  deriving DecidableEq, Repr

/-- The fault record of R21: nothing, a fault (R107) or a refusal mark (R113), with the event's index and word. -/
inductive FaultRecord where
  | none
  | fault (code : FaultCode) (eventIndex : Nat) (eventWord : EventWord)
  | refused (reason : RefuseReason) (eventIndex : Nat) (eventWord : EventWord)
  deriving DecidableEq, Repr

/-- Why an event faults. Each model fault carries what R107 records of it. -/
inductive Fault where
  /-- Raised by TICK while `armed = 0` (R64, R108). Safe: the hardware might do something benign (D8). -/
  | tickBeforeArm (eventIndex : Nat) (eventWord : EventWord)
  /-- Raised by ARM while `armed = 1` (R100, R109). Safe: the spec gives a second registration no meaning (D9). -/
  | rearm (eventIndex : Nat) (eventWord : EventWord)
  /-- Raised by a TICK that begins while another is in progress (R110). No step of the atomic machine raises it; only the
  split machine of Machine/Split.lean does. That the atomic machine cannot is unsafe (D10, log entry 9). -/
  | overlap (eventIndex : Nat) (eventWord : EventWord)
  /-- Raised by every instruction, and by the step, in a faulted state: no event has a step there (R111). Safe. -/
  | stuck
  deriving DecidableEq, Repr

/-- Why an event is refused. -/
inductive Refusal where
  /-- An instruction without a meaning, named as the opcode table names it. Raised by nothing: every arm has its meaning. -/
  | notModelled (mnemonic : String)
  /-- Raised by the step on the words `001` and `011` (R52, R113). Safe: the spec gives them no meaning. -/
  | reservedBit (eventIndex : Nat) (eventWord : EventWord)
  /-- Raised by the step on the words `110` and `111` (R52, R113). Safe: the spec gives them no meaning. -/
  | reservedOp (eventIndex : Nat) (eventWord : EventWord)
  deriving DecidableEq, Repr

/-- What the platform presents at one instant. -/
inductive Arrival where
  /-- One event word. -/
  | word (w : EventWord)
  /-- RESET together with another event (R118). -/
  | resetWith (other : EventWord)
  deriving DecidableEq, Repr

/-- The state record (R14), the output command port (R53), and the model's own place in its run (log entries 1 and 2).
The block has no memory, no program counter and no register file (R15, R16, R31). -/
structure State where
  /-- 1 once the periodic trigger has been registered (R20). -/
  armed : Bit
  /-- The source's `previous_input_level` (R17). -/
  prevIn : Bit
  /-- The source's `tone_enabled` (R18). -/
  toneEn : Bit
  /-- The level of the output line; 0 is off, low (R11, R19). -/
  outLevel : Bit
  /-- The fault record: model bookkeeping, never cleared (R21, R111). -/
  fault : FaultRecord
  /-- The command the most recent event drove on `out_cmd` (R53; DEDUCED, log entry 3). -/
  outCmd : OutCmd
  /-- The position of the next event in the run, counting from 0: an index of the trace and not state of the block
  (R15, R107; DESIGN CHOICE, log entry 2). -/
  eventIndex : Nat
  /-- The event words still to be presented, oldest first (R46; DESIGN CHOICE, log entry 1). -/
  inputs : List Arrival
  deriving DecidableEq, Repr

/-- The state RESET produces, with the fault record `none`: where a run starts (R98, R131, R132). -/
def State.reset : State :=
  { armed := false
    prevIn := false
    toneEn := false
    outLevel := false
    fault := .none
    outCmd := .none
    eventIndex := 0
    inputs := [] }

end Sys2Proof.Machine
end

