-- ==== Sys2Proof/Machine/Ops.lean ====
section
/-! DEFINITION. The named operations on the state: the output command port, the fault and refusal outcomes with their
record, the guard of a faulted state, and the arrival of events. -/

namespace Sys2Proof.Machine

/-- The effect of a command on the level of the output line (R53, R93, R94, R95). -/
def commandLevel (c : OutCmd) (level : Bit) : Bit :=
  match c with
  | .none => level
  | .setOff => false
  | .toggle => !level

/-- `Emit(c)` of R12: the command is driven on `out_cmd` and acts on the line (R53). -/
def State.drive (s : State) (c : OutCmd) : State :=
  { s with outCmd := c, outLevel := commandLevel c s.outLevel }

/-- The write of `armed` (R20): only ARM and RESET make it. -/
def State.setArmed (s : State) (b : Bit) : State := { s with armed := b }

/-- The writes of `tone_en` and `prev_in` at the end of a TICK (R67, R71, R73). -/
def State.latch (s : State) (cur en : Bit) : State := { s with prevIn := cur, toneEn := en }

/-- RESET's writes of the four state bits (R98). The fault record stays (R103, R111). -/
def State.clearBits (s : State) : State :=
  { s with armed := false, prevIn := false, toneEn := false, outLevel := false }

/-- The write of the fault record (R107, R113). -/
def State.record (s : State) (r : FaultRecord) : State := { s with fault := r }

/-- A faulted state is stuck: no event has a step (R111, the first check of R114). -/
def whenLive (s : State) (o : Host.Outcome State Fault Refusal) : Host.Outcome State Fault Refusal :=
  if s.fault = .none then o else .fault .stuck

/-- The fault of a code, for the event at a position of the run and with a word (R107). -/
def FaultCode.toFault (code : FaultCode) (eventIndex : Nat) (w : EventWord) : Fault :=
  match code with
  | .tickBeforeArm => .tickBeforeArm eventIndex w
  | .rearm => .rearm eventIndex w
  | .overlap => .overlap eventIndex w

/-- `raise Fault(code)` of R12 and R107 in an event with word `w`. -/
def raise (code : FaultCode) (w : EventWord) (s : State) : Host.Outcome State Fault Refusal :=
  .fault (code.toFault s.eventIndex w)

/-- `refuse Reserved(reason)` of R12 and R113 in an event with word `w`. -/
def refuse (r : RefuseReason) (w : EventWord) (s : State) : Host.Outcome State Fault Refusal :=
  match r with
  | .reservedBit => .refused (.reservedBit s.eventIndex w)
  | .reservedOp => .refused (.reservedOp s.eventIndex w)

/-- The number the spec gives a fault code (R108, R109, R110). -/
def FaultCode.number : FaultCode → Nat
  | .tickBeforeArm => 1
  | .rearm => 2
  | .overlap => 3

/-- The record a fault leaves (R107); the stuck outcome leaves none of its own (R111). -/
def Fault.toRecord : Fault → Option FaultRecord
  | .tickBeforeArm n w => some (.fault .tickBeforeArm n w)
  | .rearm n w => some (.fault .rearm n w)
  | .overlap n w => some (.fault .overlap n w)
  | .stuck => none

/-- The refusal mark a refusal leaves (R113). -/
def Refusal.toRecord : Refusal → Option FaultRecord
  | .reservedBit n w => some (.refused .reservedBit n w)
  | .reservedOp n w => some (.refused .reservedOp n w)
  | _ => none

/-- A stop's record is written where it has one; the stuck outcome writes nothing (R111). -/
def State.recordStop (s : State) (r : Option FaultRecord) : State :=
  match r with
  | some r => s.record r
  | none => s

/-- The state an event leaves, whatever its outcome: a fault or a refusal changes nothing but the fault record
(R107, R113), and a stuck event changes nothing (R111). -/
def settle (s : State) (o : Host.Outcome State Fault Refusal) : State :=
  match o with
  | .next t => t
  | .fault f => s.recordStop f.toRecord
  | .refused r => s.recordStop r.toRecord

/-- The event word taken at an instant: where RESET is presented with another event, RESET is taken and the other is
discarded (R118, D18; log entry 5). -/
def Arrival.taken : Arrival → EventWord
  | .word w => w
  | .resetWith _ => resetWord

/-- Another arrival is put in front of the ones still to come. -/
def State.present (s : State) (a : Arrival) : State := { s with inputs := a :: s.inputs }

/-- The arrivals still to come once the first has been taken. -/
def State.withInputs (s : State) (l : List Arrival) : State := { s with inputs := l }

/-- A completed event is one more event of the run (R15, R107; log entry 2). -/
def State.countEvent (s : State) : State := { s with eventIndex := s.eventIndex + 1 }

/-- The end of an event: a next state has one more event behind it; a stop stays as it is (R140). -/
def completeEvent (o : Host.Outcome State Fault Refusal) : Host.Outcome State Fault Refusal :=
  match o with
  | .next t => .next t.countEvent
  | .fault f => .fault f
  | .refused r => .refused r

end Sys2Proof.Machine
end

