-- ==== Sys2Proof/Machine/Output.lean ====
section
/-! DEFINITION. The commands of the output port as operations of their own (R93 to R95). A TICK, RESET or ARM drives one of
them inside its event through the same `State.drive`; that a faulted block drives none is DEDUCED (R107, R111; log entry 6). -/

namespace Sys2Proof.Machine

/-- NONE (R93): the output capability is not called. -/
def execNone (s : State) : Host.Outcome State Fault Refusal := whenLive s <| .next (s.drive .none)

/-- SET_OFF (R94): `set_off()` forces the line to its off level. -/
def execSetOff (s : State) : Host.Outcome State Fault Refusal := whenLive s <| .next (s.drive .setOff)

/-- TOGGLE (R95): `toggle()` inverts the line's level. -/
def execToggle (s : State) : Host.Outcome State Fault Refusal := whenLive s <| .next (s.drive .toggle)

end Sys2Proof.Machine
end

