-- ==== Sys2Proof/Machine/Setup.lean ====
section
/-! DEFINITION. The setup events RESET and ARM (R98 to R103). -/

namespace Sys2Proof.Machine

/-- RESET (R98): the four bits to 0 and NONE on `out_cmd`; the line falls by reset and not by a command (D12). -/
def execReset (s : State) : Host.Outcome State Fault Refusal :=
  whenLive s <| .next (s.clearBits.drive .none)

/-- ARM (R99, R100, R101): a second registration faults. -/
def execArm (s : State) : Host.Outcome State Fault Refusal :=
  whenLive s <|
    if s.armed then raise .rearm armWord s else .next ((s.setArmed true).drive .none)

end Sys2Proof.Machine
end

