-- ==== Sys2Proof/Machine/Flags.lean ====
section
/-! DEFINITION. The flag computations of a TICK: the edge, the flip of `tone_en` and the command they select. -/

namespace Sys2Proof.Machine

/-- Step 2: `edge := cur AND NOT s.prev_in` (R66). -/
def risingEdge (prevIn cur : Bit) : Bit := cur && !prevIn

/-- Step 2: `en := s.tone_en XOR edge` (R67). -/
def flipTone (toneEn edge : Bit) : Bit := xor toneEn edge

/-- Steps 3 and 4: the command of a TICK (R68, R69, R70). The conditions of the two steps exclude each other (R74). -/
def tickCommand (edge en : Bit) : OutCmd :=
  if en then .toggle else if edge then .setOff else .none

end Sys2Proof.Machine
end

