-- ==== Sys2Proof/Machine/Operands.lean ====
section
/-! DEFINITION. The one operand form: the sample of the input line (R55, R63, R91). -/

namespace Sys2Proof.Machine

/-- `read_level()`: the value of the input port in step 1 of a TICK is the `i` field of its word, used as is
(R50, R55, R65, R91). No earlier sample, output or time constrains it (R39, R92). -/
def readLevel (i : Bit) : Bit := i

end Sys2Proof.Machine
end

