-- ==== Sys2Proof/Machine/Tick.lean ====
section
/-! DEFINITION. TICK, one invocation of `on_tick()` (R63 to R73). -/

namespace Sys2Proof.Machine

/-- Steps 1 to 5 of `on_tick()` on an armed block (R65 to R71). -/
def onTick (level : Bit) (s : State) : State :=
  let cur := readLevel level
  let edge := risingEdge s.prevIn cur
  let en := flipTone s.toneEn edge
  (s.latch cur en).drive (tickCommand edge en)

/-- TICK (R73): the precondition of R64, then the five steps, committed together (R140). -/
def execTick (level : Bit) (s : State) : Host.Outcome State Fault Refusal :=
  whenLive s <|
    if s.armed then .next (onTick level s) else raise .tickBeforeArm (tickWord level) s

end Sys2Proof.Machine
end

