-- ==== Sys2Proof/Machine/Dispatch.lean ====
section
/-! DEFINITION. One arm per row of spec/opcode_table.json. -/

namespace Sys2Proof.Machine

def exec (i : Instr) (s : State) : Host.Outcome State Fault Refusal :=
  match i with
  | .reset => Sys2Proof.Machine.execReset s
  | .arm => Sys2Proof.Machine.execArm s
  | .tick level => Sys2Proof.Machine.execTick level s
  | .cmdNone => Sys2Proof.Machine.execNone s
  | .cmdSetOff => Sys2Proof.Machine.execSetOff s
  | .cmdToggle => Sys2Proof.Machine.execToggle s

end Sys2Proof.Machine
end

