-- ==== Sys2Proof/Machine/Event.lean ====
section
/-! DEFINITION. One event of a run: the order of the checks (R114) around the instruction's own meaning. -/

namespace Sys2Proof.Machine

/-- `Step(s, e)` of R12 on an event word: the fault record first, then a reserved word, then the event's own precondition
and effect (R114). -/
def takeEvent (w : EventWord) (s : State) : Host.Outcome State Fault Refusal :=
  whenLive s <|
    match decodeEvent w with
    | .error r => refuse r w s
    | .ok i => completeEvent (exec i s)

/-- One step of the machine: it takes the event at the head of the pending arrivals. With none pending the block waits
and holds its state (R27, R130, R133; log entry 1); a faulted block is stuck either way (R111). -/
def stepPending (s : State) : Host.Outcome State Fault Refusal :=
  match s.inputs with
  | [] => whenLive s (.next s)
  | a :: rest => takeEvent a.taken (s.withInputs rest)

/-- The event word of a table row is put where the next step takes its event (log entries 6 and 7). A row of 2 bits is
no event but a code the block itself drives on `out_cmd` (R53), and a number of more than 3 bits is no event word: nothing
is placed for either. -/
def presentWord (nbits w : Nat) (s : State) : State :=
  if nbits ≤ 2 ∨ 8 ≤ w then s else s.present (.word (BitVec.ofNat 3 w))

end Sys2Proof.Machine
end

