-- ==== Sys2Proof/Machine/Step.lean ====
section
/-! DEFINITION. The step of the machine, and where it takes its next event. -/

namespace Sys2Proof.Machine

/-- One step: the next pending event, or waiting where none is pending (R114, R133). -/
def step (s : State) : Host.Outcome State Fault Refusal := stepPending s

/-- The event word of a table row becomes the next arrival (log entries 6 and 7). -/
def State.withFetchWord (s : State) (nbits w : Nat) : State := presentWord nbits w s

end Sys2Proof.Machine
end

