-- ==== Sys2Proof/Machine/Assembler.lean ====
section
/-! DEFINITION. The assembler of R57 and R58 on lines of characters. What the spec leaves open of it (the white space between
tokens, capitals, a line with no event) is fixed in log entry 12. -/

namespace Sys2Proof.Machine

/-- Anything after `;` is a comment (R57). -/
def stripComment : List Char → List Char
  | [] => []
  | c :: cs => if c = ';' then [] else c :: stripComment cs

/-- A character that parts two tokens. -/
def isBlank (c : Char) : Bool := c = ' ' || c = '\t' || c = '\r'

/-- The tokens of a line, the letters of the one being read standing in reverse in `cur`. -/
def tokensFrom (cur : List Char) : List Char → List (List Char)
  | [] => if cur = [] then [] else [cur.reverse]
  | c :: cs =>
    if isBlank c then (if cur = [] then tokensFrom [] cs else cur.reverse :: tokensFrom [] cs)
    else tokensFrom (c :: cur) cs

/-- The spellings of a sample: `0` or `F`, `1` or `T` (R57). -/
def sampleOfToken (t : List Char) : Option Bit :=
  if t = ['0'] ∨ t = ['F'] then some false
  else if t = ['1'] ∨ t = ['T'] then some true
  else none

/-- The samples of `TICKS`: each is `0` or `1` (R58). -/
def digitsOfTokens : List (List Char) → Option (List Bit)
  | [] => some []
  | t :: ts =>
    if t = ['0'] then (digitsOfTokens ts).map (false :: ·)
    else if t = ['1'] then (digitsOfTokens ts).map (true :: ·)
    else none

/-- `TICKS b1 b2 … bn` expands to the events `TICK b1`, `TICK b2`, …, `TICK bn`, in that order (R58). -/
def expandTicks (bs : List Bit) : List Instr := bs.map Instr.tick

/-- The events of one line (R57, R58); none where the line is not of the assembler's language. -/
def assembleLine (line : List Char) : Option (List Instr) :=
  match tokensFrom [] (stripComment line) with
  | [] => some []
  | [t] =>
    if t = ['R', 'E', 'S', 'E', 'T'] then some [.reset]
    else if t = ['A', 'R', 'M'] then some [.arm]
    else none
  | t :: u :: rest =>
    if t = ['T', 'I', 'C', 'K'] then
      match rest with
      | [] => (sampleOfToken u).map fun b => [.tick b]
      | _ :: _ => none
    else if t = ['T', 'I', 'C', 'K', 'S'] then (digitsOfTokens (u :: rest)).map expandTicks
    else none

/-- The events of a program, line after line (R57). -/
def assembleLines : List (List Char) → Option (List Instr)
  | [] => some []
  | l :: ls =>
    match assembleLine l with
    | some is => (assembleLines ls).map (is ++ ·)
    | none => none

/-- The event words of a program. -/
def assemble (lines : List (List Char)) : Option (List EventWord) :=
  match assembleLines lines with
  | some is => encodeEvents is
  | none => none

end Sys2Proof.Machine
end

