-- ==== Sys2Proof/Machine/Split.lean ====
section
/-! DEFINITION. A second machine that splits a TICK into its five steps, beside the atomic one. R110 reserves fault code 3
for such a model: it must raise `OVERLAP` when a TICK begins while another is in progress. It makes the launch premise
`NonOverlappingTicks` of R136 a statement about schedules (log entry 9). -/

namespace Sys2Proof.Machine

/-- Where an invocation stands: the step it runs next, with the sample and the edge it holds (R65 to R71). -/
inductive TickPhase where
  /-- No invocation is in progress. -/
  | idle
  /-- Step 2 is next: edge detection and flip. -/
  | detect (cur : Bit)
  /-- Step 3 is next: forced off. -/
  | forceOff (cur edge : Bit)
  /-- Step 4 is next: toggle. -/
  | toggle (cur : Bit)
  /-- Step 5 is next: remember the sample. -/
  | remember (cur : Bit)
  deriving DecidableEq, Repr

/-- The state of the split machine: the block's, and the invocation in progress. -/
structure SplitState where
  base : State
  phase : TickPhase
  deriving DecidableEq, Repr

/-- The steps still to run in a phase. -/
def TickPhase.stepsLeft : TickPhase → Nat
  | .idle => 0
  | .detect _ => 4
  | .forceOff _ _ => 3
  | .toggle _ => 2
  | .remember _ => 1

/-- What the platform does to the split machine: it begins an invocation, or lets one step of the one in progress run. -/
inductive SplitEvent where
  | begin (level : Bit)
  | advance
  deriving DecidableEq, Repr

/-- The position in the run of an invocation that begins now. DESIGN CHOICE (log entry 9): the spec does not say how an
invocation in progress counts. Its index is `base.eventIndex` until step 5 counts it, so an invocation that overlaps it stands
one place later (R107). -/
def beginIndex (m : SplitState) : Nat :=
  if m.phase = .idle then m.base.eventIndex else m.base.eventIndex + 1

/-- An invocation begins (R110): in progress, it overlaps; unarmed, it faults before step 1 (R64, R121); otherwise step 1
samples the line (R65), with no command driven yet. A fault records the word of the invocation that begins and its own position
in the run, not those of the invocation in progress: for OVERLAP this is the model's choice (log entry 9). -/
def beginTick (level : Bit) (m : SplitState) : Host.Outcome SplitState Fault Refusal :=
  if m.base.fault ≠ .none then .fault .stuck
  else if m.phase ≠ .idle then .fault (FaultCode.overlap.toFault (beginIndex m) (tickWord level))
  else if m.base.armed then
    .next { base := { m.base with outCmd := .none }, phase := .detect (readLevel level) }
  else .fault (FaultCode.tickBeforeArm.toFault (beginIndex m) (tickWord level))

/-- One of steps 2 to 5 runs (R66 to R71), its writes made at once. After step 5 the event is complete. -/
def advanceTick (m : SplitState) : SplitState :=
  match m.phase with
  | .idle => m
  | .detect cur =>
    let edge := risingEdge m.base.prevIn cur
    { base := { m.base with toneEn := flipTone m.base.toneEn edge }, phase := .forceOff cur edge }
  | .forceOff cur edge =>
    { base := if edge && !m.base.toneEn then m.base.drive .setOff else m.base, phase := .toggle cur }
  | .toggle cur =>
    { base := if m.base.toneEn then m.base.drive .toggle else m.base, phase := .remember cur }
  | .remember cur =>
    { base := ({ m.base with prevIn := cur } : State).countEvent, phase := .idle }

/-- One event of the split machine. -/
def splitStep (e : SplitEvent) (m : SplitState) : Host.Outcome SplitState Fault Refusal :=
  match e with
  | .begin level => beginTick level m
  | .advance => if m.base.fault ≠ .none then .fault .stuck else .next (advanceTick m)

/-- A schedule run on the split machine, up to its first fault. -/
def runSplit : List SplitEvent → SplitState → Host.Outcome SplitState Fault Refusal
  | [], m => .next m
  | e :: es, m =>
    match splitStep e m with
    | .next m' => runSplit es m'
    | .fault f => .fault f
    | .refused r => .refused r

/-- The state that an event of the split machine leaves: a fault writes the record and changes nothing else (R107), so an
invocation that was in progress stays where it stood and no later step of it runs (R111; DESIGN CHOICE, log entry 9). -/
def splitSettle (m : SplitState) (o : Host.Outcome SplitState Fault Refusal) : SplitState :=
  match o with
  | .next m' => m'
  | .fault f => { m with base := m.base.recordStop f.toRecord }
  | .refused r => { m with base := m.base.recordStop r.toRecord }

/-- The state a schedule leaves, with the record of the first fault: after it no event has a step (R111). -/
def splitAfter : List SplitEvent → SplitState → SplitState
  | [], m => m
  | e :: es, m => splitAfter es (splitSettle m (splitStep e m))

/-- The launch premise `NonOverlappingTicks` of R136 on a schedule, `left` being the steps the invocation in progress has
still to run: no invocation begins before the previous one has completed. -/
def nonOverlapping (left : Nat) : List SplitEvent → Bool
  | [] => true
  | .begin _ :: es => left == 0 && nonOverlapping 4 es
  | .advance :: es => nonOverlapping (left - 1) es

/-- The steps the invocation in progress has still to run after a schedule. -/
def stepsLeftAfter (left : Nat) : List SplitEvent → Nat
  | [] => left
  | .begin _ :: es => stepsLeftAfter 4 es
  | .advance :: es => stepsLeftAfter (left - 1) es

/-- The samples of a schedule's invocations, in order. -/
def samplesOf : List SplitEvent → List Bit
  | [] => []
  | .begin level :: es => level :: samplesOf es
  | .advance :: es => samplesOf es

end Sys2Proof.Machine
end

