-- ==== Sys2Proof/Machine/Observe.lean ====
section
/-! DEFINITION. The views of the state that the spec names: the status word, the named states, the trace tuple and the
observation of an event. No event reads any of them (R62). -/

namespace Sys2Proof.Machine

/-- `STATUS = {armed, tone_en, prev_in, out_level}` (R62). -/
def State.status (s : State) : StatusWord :=
  BitVec.ofBool s.armed ++ BitVec.ofBool s.toneEn ++ BitVec.ofBool s.prevIn ++ BitVec.ofBool s.outLevel

/-- The three states of the source's view (R22). -/
inductive NamedState where
  | silent
  | toneLow
  | toneHigh
  deriving DecidableEq, Repr

/-- The named state of the state bits (R22); the combination `tone_en = 0`, `out_level = 1` has no name (R23). -/
def State.named (s : State) : Option NamedState :=
  match s.toneEn, s.outLevel with
  | false, false => some .silent
  | true, false => some .toneLow
  | true, true => some .toneHigh
  | false, true => none

/-- The trace notation `(armed, prev_in, tone_en, out_level)` (R59). -/
def State.tuple (s : State) : Bit × Bit × Bit × Bit := (s.armed, s.prevIn, s.toneEn, s.outLevel)

/-- What an event shows: the command it drove and the level of the line after it (R144). -/
def State.observation (s : State) : OutCmd × Bit := (s.outCmd, s.outLevel)

end Sys2Proof.Machine
end

