-- ==== Sys2Proof/Machine/Trace.lean ====
section
/-! DEFINITION. Runs of event words with their observation (R46, R144), and the trace checker of R54. -/

namespace Sys2Proof.Machine

/-- A finite prefix of a run: one observation per event that had a next state, and the state after the last event (R144). -/
structure RunResult where
  observed : List (OutCmd × Bit)
  last : State
  deriving DecidableEq, Repr

/-- One more observation in front of a run's. -/
def RunResult.prepend (o : OutCmd × Bit) (r : RunResult) : RunResult :=
  { r with observed := o :: r.observed }

/-- The run of a list of event words. A fault or a refusal sets the fault record, after which no event has a step
(R107, R111, R113). An event that faults or is refused drives no command and shows no observation (DEDUCED, log entry 13). -/
def runEvents : List EventWord → State → RunResult
  | [], s => { observed := [], last := s }
  | w :: ws, s =>
    match takeEvent w s with
    | .next t => (runEvents ws t).prepend t.observation
    | .fault f => { observed := [], last := settle s (.fault f) }
    | .refused r => { observed := [], last := settle s (.refused r) }

/-- A run ends well if its last state has the fault record `none` (R144). -/
def RunResult.endsWell (r : RunResult) : Bool := r.last.fault = .none

/-- One row of a trace: the event word, the code seen on `out_cmd` and the level seen after the event. -/
structure TraceRow where
  word : EventWord
  code : CommandCode
  level : Bit
  deriving DecidableEq, Repr

/-- The trace checker: it replays the events and compares code and level; a trace that shows the reserved code `11` is
rejected (R54). -/
def checkTrace : List TraceRow → State → Bool
  | [], _ => true
  | r :: rs, s =>
    match takeEvent r.word s with
    | .next t => decodeCommand r.code = some t.outCmd && r.level == t.outLevel && checkTrace rs t
    | .fault _ => false
    | .refused _ => false

/-- The trace that a run shows, one row per event, its codes on the port (R53, R144). -/
def traceOf : List EventWord → State → List TraceRow
  | [], _ => []
  | w :: ws, s =>
    match takeEvent w s with
    | .next t => { word := w, code := t.outCmd.code, level := t.outLevel } :: traceOf ws t
    | .fault _ => []
    | .refused _ => []

end Sys2Proof.Machine
end

