-- ==== Sys2Proof/Safety.lean ====
section
/-! DEFINITION. What the statements call a good state, a launch premise and a good run. -/

namespace Sys2Proof.Machine

/-- The launch premise `ResetReachable` (R135): a state some run of events reaches from reset. The platform may present any
arrivals at the start, so every sequence of events is covered; only events that have a next state are taken, so the fault
record stays `none`. -/
inductive ResetReachable : State → Prop where
  | start (arrivals : List Arrival) : ResetReachable (State.reset.withInputs arrivals)
  | event {s t : State} (h : ResetReachable s) (hs : step s = .next t) : ResetReachable t

/-- The block's invariant: R24's `out_level = 1` implies `tone_en = 1`; an unarmed block is silent with `prev_in = 0`; the
last command was TOGGLE exactly while the tone is enabled; and a SET_OFF was driven by a tick that sampled 1 and disabled. -/
structure State.BlockInv (s : State) : Prop where
  levelNeedsTone : s.outLevel = true → s.toneEn = true
  unarmedQuiet : s.armed = false → s.prevIn = false ∧ s.toneEn = false ∧ s.outLevel = false
  toneToggles : s.outCmd = .toggle ↔ s.toneEn = true
  offWhileOff : s.outCmd = .setOff → s.prevIn = true ∧ s.toneEn = false ∧ s.outLevel = false

/-- The words a fault record may hold: code 1 and code 3 a TICK word, code 2 the ARM word (R112), a refusal mark a word that
is reserved for its reason (R52). -/
def FaultRecord.wellFormed : FaultRecord → Bool
  | .none => true
  | .fault .tickBeforeArm _ w => w == tickWord false || w == tickWord true
  | .fault .overlap _ w => w == tickWord false || w == tickWord true
  | .fault .rearm _ w => w == armWord
  | .refused .reservedBit _ w => w == 0b001#3 || w == 0b011#3
  | .refused .reservedOp _ w => w == 0b110#3 || w == 0b111#3

/-- No rising edge in a list of samples, the first compared with `prev` (R66, R87). -/
def noEdges (prev : Bit) : List Bit → Bool
  | [] => true
  | b :: bs => !risingEdge prev b && noEdges b bs

/-- Two states whose four bits and fault record are equal: what the rules of the events read (R63, R98, R99, R111). -/
def State.SameBlock (s t : State) : Prop :=
  s.armed = t.armed ∧ s.prevIn = t.prevIn ∧ s.toneEn = t.toneEn ∧ s.outLevel = t.outLevel ∧ s.fault = t.fault

end Sys2Proof.Machine
end

