-- ==== Sys2Proof/Certificates/Slice0/Obligations.lean ====
section
/-! DEFINITION. The statements for the provers. Each docstring names the rule of spec/ that it formalises, or says which
decision of the spec or of the model it rests on. -/

open Sys2Proof Sys2Proof.Machine

/-! ## Words -/

/-- The eight event words (R61, with R48 to R52). The encoding is the spec's own (D5, D7). -/
def Obligations.EventWordsDecodeAsTabulated : Prop :=
  decodeEvent 0b000#3 = .ok .reset ∧ decodeEvent 0b001#3 = .error .reservedBit ∧
  decodeEvent 0b010#3 = .ok .arm ∧ decodeEvent 0b011#3 = .error .reservedBit ∧
  decodeEvent 0b100#3 = .ok (.tick false) ∧ decodeEvent 0b101#3 = .ok (.tick true) ∧
  decodeEvent 0b110#3 = .error .reservedOp ∧ decodeEvent 0b111#3 = .error .reservedOp

/-- The four codes of the output port (R53, R54). The encoding is the spec's own (D6). -/
def Obligations.CommandCodesDecodeAsTabulated : Prop :=
  decode (.command 0b00#2) = .instr .cmdNone ∧ decode (.command 0b01#2) = .instr .cmdSetOff ∧
  decode (.command 0b10#2) = .instr .cmdToggle ∧ decode (.command 0b11#2) = .reservedCommand

/-- Decoding an encoded operation gives it back, and a word that has a meaning is the encoder's word for it: every legal word
of either format has one meaning and every operation one word (30_encoding.md, the spec's own encodings D5 and D6). -/
def Obligations.EncodingIsOneToOne : Prop :=
  (∀ i : Instr, decode (encode i) = .instr i) ∧
  (∀ (c : CodeWord) (i : Instr), decode c = .instr i → encode i = c)

/-- A program of events survives being written as one string of bits and read back as consecutive 3-bit words (R46, R56).
That `w[2]` is printed first is DEDUCED (log entry 11). -/
def Obligations.EventStreamRoundTrips : Prop :=
  ∀ is : List Instr, (∀ i ∈ is, i.isEvent = true) →
    ∃ ws, encodeEvents is = some ws ∧ (joinWords ws).length = 3 * is.length ∧
      splitWords (joinWords ws) = some ws ∧ decodeEvents ws = .ok is

/-- A line `TICKS b1 b2 … bn` assembles to the `n` ticks in that order (R58; the syntax is the spec's own, D19). One space
before each digit is one of the spellings that log entry 12 admits. -/
def Obligations.TicksLineExpandsToTicks : Prop :=
  ∀ bs : List Bit, bs ≠ [] →
    assembleLine (['T', 'I', 'C', 'K', 'S'] ++ bs.flatMap fun b => [' ', if b then '1' else '0']) =
      some (bs.map Instr.tick)

/-! ## The step -/

/-- A step runs the event at the head of the pending arrivals: `exec` of its instruction on the state with that arrival
taken off, and on a next state one more event counted. That the events stand in State is the model's choice (log entries 1
and 2). -/
def Obligations.StepRunsThePendingEvent : Prop :=
  ∀ (s : State) (w : EventWord) (rest : List Arrival) (i : Instr),
    s.fault = .none → s.inputs = .word w :: rest → decodeEvent w = .ok i →
    step s =
      match exec i { s with inputs := rest } with
      | .next t => .next { t with eventIndex := t.eventIndex + 1 }
      | .fault f => .fault f
      | .refused r => .refused r

/-- With nothing pending the block waits and holds its whole state. That a step exists there is the model's choice
(log entry 1), made from R130 and R133. -/
def Obligations.StepWaitsWithNothingPending : Prop :=
  ∀ s : State, s.fault = .none → s.inputs = [] → step s = .next s

/-- RESET presented together with another event: RESET is taken and the other is discarded, whatever it is (R118). The spec
marks this as its own decision (D18); that a reserved word is discarded too is log entry 5, and that the state counts the
event is log entry 2. The effect is RESET's own (R98). -/
def Obligations.ResetWinsOverSimultaneousEvent : Prop :=
  ∀ (s : State) (other : EventWord) (rest : List Arrival),
    s.fault = .none → s.inputs = .resetWith other :: rest →
    step s = .next { s with armed := false, prevIn := false, toneEn := false, outLevel := false, outCmd := .none,
                            eventIndex := s.eventIndex + 1, inputs := rest }

/-- A reserved word is refused with its reason, index and word, and what it leaves differs from the state before it in the
refusal mark only (R52, R113; the spec's own decision D7). -/
def Obligations.ReservedWordsAreRefused : Prop :=
  ∀ (s : State) (w : EventWord) (rest : List Arrival), s.fault = .none → s.inputs = .word w :: rest →
    ((w = 0b001#3 ∨ w = 0b011#3) →
      step s = .refused (.reservedBit s.eventIndex w) ∧
      settle s (step s) = { s with fault := .refused .reservedBit s.eventIndex w }) ∧
    ((w = 0b110#3 ∨ w = 0b111#3) →
      step s = .refused (.reservedOp s.eventIndex w) ∧
      settle s (step s) = { s with fault := .refused .reservedOp s.eventIndex w })

/-- R111: once the fault record is set no event has a step, whatever is pending, RESET included; the state stays as it is
and the record is never cleared. -/
def Obligations.FaultedStateHasNoStep : Prop :=
  ∀ s : State, s.fault ≠ .none →
    step s = .fault .stuck ∧ settle s (step s) = s ∧
    (∀ w : EventWord, takeEvent w s = .fault .stuck) ∧
    (∀ i : Instr, i.isEvent = true → exec i s = .fault .stuck) ∧
    (∀ ws : List EventWord, (runEvents ws s).last = s ∧ (runEvents ws s).observed = [])

/-- A step that faults or refuses on its event changes nothing but the fault record, which then holds the cause, the index
of the event and its word (R107, R113; the record is the spec's own decision D11). -/
def Obligations.StopsRecordTheirEvent : Prop :=
  ∀ (s : State) (a : Arrival) (rest : List Arrival), s.fault = .none → s.inputs = a :: rest →
    (∀ f, step s = .fault f →
      ∃ code, settle s (step s) = { s with fault := .fault code s.eventIndex a.taken }) ∧
    (∀ r, step s = .refused r →
      ∃ reason, settle s (step s) = { s with fault := .refused reason s.eventIndex a.taken })

/-- The record always holds a word that fits its cause: a TICK word for codes 1 and 3, the ARM word for code 2, a reserved
word for a refusal (R112, which the spec derives). It holds at reset, and every step, stops included, keeps it. -/
def Obligations.FaultRecordKeepsFittingWord : Prop :=
  State.reset.fault.wellFormed = true ∧
  ∀ s : State, s.fault.wellFormed = true → (settle s (step s)).fault.wellFormed = true

/-- No instruction and no step of the atomic machine raises code 3, `OVERLAP` (R110; the atomic model is the spec's own
decision D10, log entry 9). -/
def Obligations.AtomicMachineNeverOverlaps : Prop :=
  ∀ (s : State) (n : Nat) (w : EventWord),
    (∀ i : Instr, exec i s ≠ .fault (.overlap n w)) ∧ step s ≠ .fault (.overlap n w)

/-! ## RESET and ARM -/

/-- The state after power-on, field by field, and its name (R132, R131). `armed` and `fault` are the spec's own fields
(D4, D11); the place in the run is the model's (log entries 1 and 2), as is keeping the last command (log entry 3). -/
def Obligations.ResetStateIsSilent : Prop :=
  State.reset.armed = false ∧ State.reset.prevIn = false ∧ State.reset.toneEn = false ∧
  State.reset.outLevel = false ∧ State.reset.fault = .none ∧ State.reset.outCmd = .none ∧
  State.reset.eventIndex = 0 ∧ State.reset.inputs = [] ∧ State.reset.named = some .silent

/-- RESET in any live state (R98, R103): the four bits are 0 whatever they were, NONE is driven, and nothing else changes,
the fault record included. The event is the spec's own decision (D12). -/
def Obligations.ResetClearsTheBlock : Prop :=
  ∀ s : State, s.fault = .none →
    exec .reset s =
      .next { s with armed := false, prevIn := false, toneEn := false, outLevel := false, outCmd := .none }

/-- ARM on an unarmed block sets `armed`, drives NONE and changes nothing else (R99, R101; the spec's own decisions D4
and D25). -/
def Obligations.ArmSetsArmed : Prop :=
  ∀ s : State, s.fault = .none → s.armed = false →
    exec .arm s = .next { s with armed := true, outCmd := .none }

/-- ARM on an armed block faults with `REARM`, its word `010` recorded, and changes no state bit (R100, R109; the spec's own
decision D9). -/
def Obligations.SecondArmFaults : Prop :=
  ∀ s : State, s.fault = .none → s.armed = true →
    exec .arm s = .fault (.rearm s.eventIndex 0b010#3) ∧
    settle s (exec .arm s) = { s with fault := .fault .rearm s.eventIndex 0b010#3 }

/-- The boot order of R134 from any live state: RESET, ARM, TICK run to the end; without ARM the TICK after RESET faults
with its own index and word (R103, R137; `armed` is the spec's own decision D4). That the recorded index is one more than the
RESET's, which counts as an event and does not set the count back, is the model's choice (log entry 2); that the faulting TICK
shows no observation is log entry 13. -/
def Obligations.BootOrderIsEnforced : Prop :=
  ∀ (s : State) (i : Bit), s.fault = .none →
    (runEvents [0b000#3, 0b010#3, tickWord i] s).endsWell = true ∧
    (runEvents [0b000#3, 0b010#3, tickWord i] s).last.armed = true ∧
    (runEvents [0b000#3, tickWord i] s).observed = [(.none, false)] ∧
    (runEvents [0b000#3, tickWord i] s).last.fault = .fault .tickBeforeArm (s.eventIndex + 1) (tickWord i)

/-! ## TICK -/

/-- TICK on an armed block, steps 1 to 5 composed in the source's order (R66 to R71): the whole next state. -/
def Obligations.TickFollowsTheAlgorithm : Prop :=
  ∀ (s : State) (i : Bit), s.fault = .none → s.armed = true →
    exec (.tick i) s =
      let edge := i && !s.prevIn
      let en := xor s.toneEn edge
      .next { s with
        prevIn := i
        toneEn := en
        outLevel := if en then !s.outLevel else if edge then false else s.outLevel
        outCmd := if en then .toggle else if edge then .setOff else .none }

/-- TICK on an unarmed block does not run: code 1, with the index and the TICK word, and no state bit changed (R64, R108;
the spec's own decision D8). -/
def Obligations.UnarmedTickFaults : Prop :=
  ∀ (s : State) (i : Bit), s.fault = .none → s.armed = false →
    exec (.tick i) s = .fault (.tickBeforeArm s.eventIndex (if i then 0b101#3 else 0b100#3)) ∧
    settle s (exec (.tick i) s) =
      { s with fault := .fault .tickBeforeArm s.eventIndex (if i then 0b101#3 else 0b100#3) }

/-- R66 and R67: the edge is 1 only for the pair (0, 1); `tone_en` is flipped on it, from either value, and kept otherwise;
the flipped value is what steps 3 and 4 read and what is written. -/
def Obligations.TickFlipsToneOnRisingEdge : Prop :=
  ∀ (s : State) (i : Bit), s.fault = .none → s.armed = true →
    ∃ t, exec (.tick i) s = .next t ∧
      risingEdge s.prevIn i = (i && !s.prevIn) ∧
      (risingEdge s.prevIn i = true ↔ s.prevIn = false ∧ i = true) ∧
      t.toneEn = xor s.toneEn (risingEdge s.prevIn i) ∧
      (s.prevIn = false ∧ i = true → t.toneEn = !s.toneEn) ∧
      (¬(s.prevIn = false ∧ i = true) → t.toneEn = s.toneEn) ∧
      (t.outCmd = .setOff ↔ risingEdge s.prevIn i = true ∧ t.toneEn = false) ∧
      (t.outCmd = .toggle ↔ t.toneEn = true)

/-- R68: SET_OFF is issued exactly where the edge disables the tone, the line being high or already low, and the level is
then 0; the condition on `en` is the condition on the old `tone_en`. -/
def Obligations.DisablingTickForcesOff : Prop :=
  ∀ (s : State) (i : Bit), s.fault = .none → s.armed = true →
    ∃ t, exec (.tick i) s = .next t ∧
      (t.outCmd = .setOff ↔ risingEdge s.prevIn i = true ∧ t.toneEn = false) ∧
      (risingEdge s.prevIn i = true ∧ t.toneEn = false ↔ risingEdge s.prevIn i = true ∧ s.toneEn = true) ∧
      (risingEdge s.prevIn i = true ∧ s.toneEn = true → t.outLevel = false)

/-- R69: TOGGLE is issued exactly where the tone is enabled after the flip, and the level is then the inverse of what it
was; the tick that has just enabled the tone is one of these. -/
def Obligations.EnabledTickToggles : Prop :=
  ∀ (s : State) (i : Bit), s.fault = .none → s.armed = true →
    ∃ t, exec (.tick i) s = .next t ∧
      (t.outCmd = .toggle ↔ t.toneEn = true) ∧
      (t.toneEn = true → t.outLevel = !s.outLevel) ∧
      (risingEdge s.prevIn i = true ∧ s.toneEn = false → t.outCmd = .toggle)

/-- R70: with the tone disabled after the flip step 4 issues nothing; where step 3 issued nothing either, NONE is driven and
the level is unchanged. -/
def Obligations.DisabledTickLeavesLine : Prop :=
  ∀ (s : State) (i : Bit), s.fault = .none → s.armed = true →
    ∃ t, exec (.tick i) s = .next t ∧
      (t.toneEn = false → t.outCmd ≠ .toggle) ∧
      (t.toneEn = false → t.outCmd ≠ .setOff → t.outCmd = .none ∧ t.outLevel = s.outLevel)

/-- R71: the sample is remembered by every TICK, whatever steps 2 to 4 did. -/
def Obligations.TickRemembersSample : Prop :=
  ∀ (s : State) (i : Bit), s.fault = .none → s.armed = true →
    ∃ t, exec (.tick i) s = .next t ∧ t.prevIn = i

/-- R121: a TICK in a live state either completes, all its writes in one next state, or faults and writes nothing. -/
def Obligations.TickIsAllOrNothing : Prop :=
  ∀ (s : State) (i : Bit), s.fault = .none →
    (s.armed = true ∧ ∃ t, exec (.tick i) s = .next t ∧ t.prevIn = i ∧ t.toneEn = xor s.toneEn (i && !s.prevIn) ∧
      t.outLevel = commandLevel t.outCmd s.outLevel ∧
      t.outCmd = (if t.toneEn then .toggle else if i && !s.prevIn then .setOff else .none)) ∨
    (s.armed = false ∧ ∃ f, exec (.tick i) s = .fault f ∧
      ∃ r, settle s (exec (.tick i) s) = { s with fault := r })

/-- The sixteen rows of R82 in its order: `(prev_in, tone_en, out_level, i)`, then
`(prev_in', tone_en', out_level', out_cmd)`. -/
def Sys2Proof.Machine.tickTable : List ((Bit × Bit × Bit × Bit) × (Bit × Bit × Bit × OutCmd)) :=
  [((false, false, false, false), (false, false, false, .none)),
   ((false, false, false, true), (true, true, true, .toggle)),
   ((false, false, true, false), (false, false, true, .none)),
   ((false, false, true, true), (true, true, false, .toggle)),
   ((false, true, false, false), (false, true, true, .toggle)),
   ((false, true, false, true), (true, false, false, .setOff)),
   ((false, true, true, false), (false, true, false, .toggle)),
   ((false, true, true, true), (true, false, false, .setOff))] ++
  [((true, false, false, false), (false, false, false, .none)),
   ((true, false, false, true), (true, false, false, .none)),
   ((true, false, true, false), (false, false, true, .none)),
   ((true, false, true, true), (true, false, true, .none)),
   ((true, true, false, false), (false, true, true, .toggle)),
   ((true, true, false, true), (true, true, true, .toggle)),
   ((true, true, true, false), (false, true, false, .toggle)),
   ((true, true, true, true), (true, true, false, .toggle))]

/-- The next-state table of TICK on an armed block (R82, which the spec derives from R73), the unreachable rows included:
each row is what `exec` does, and every combination of state bits and sample has its row. -/
def Obligations.TickTableHolds : Prop :=
  (∀ row ∈ tickTable, ∀ s : State, s.fault = .none → s.armed = true →
    (s.prevIn, s.toneEn, s.outLevel) = (row.1.1, row.1.2.1, row.1.2.2.1) →
    exec (.tick row.1.2.2.2) s =
      .next { s with prevIn := row.2.1, toneEn := row.2.2.1, outLevel := row.2.2.2.1, outCmd := row.2.2.2.2 }) ∧
  (∀ (s : State) (i : Bit), ∃ row ∈ tickTable, row.1 = (s.prevIn, s.toneEn, s.outLevel, i))

/-! ## The output commands -/

/-- NONE (R93): code `00`, the line unchanged, and nothing else but the port; RESET, ARM and every TICK with the tone off
and no disabling edge drive it, and no other event does. The code is the spec's own (D6); that a command runs as an
operation of its own is log entry 6. -/
def Obligations.NoneLeavesTheLine : Prop :=
  OutCmd.none.code = 0b00#2 ∧
  (∀ s : State, s.fault = .none → exec .cmdNone s = .next { s with outCmd := .none }) ∧
  (∀ (w : EventWord) (s t : State), takeEvent w s = .next t →
    (t.outCmd = .none ↔
      (w = 0b000#3 ∨ w = 0b010#3 ∨
        ∃ i, w = tickWord i ∧ t.toneEn = false ∧ risingEdge s.prevIn i = false)))

/-- SET_OFF (R94): code `01`; `set_off()` forces the line to 0 whatever its level was and changes nothing else but the port;
the one event that issues it is a TICK in its step 3. That the command runs as an operation of its own, in every live state, is
the model's choice (log entry 6), and that it is stuck in a faulted state is FaultedBlockDrivesNoCommand. -/
def Obligations.SetOffForcesLineOff : Prop :=
  OutCmd.setOff.code = 0b01#2 ∧
  (∀ s : State, s.fault = .none → exec .cmdSetOff s = .next { s with outLevel := false, outCmd := .setOff }) ∧
  (∀ (w : EventWord) (s t : State), takeEvent w s = .next t → t.outCmd = .setOff →
    ∃ i, w = tickWord i ∧ risingEdge s.prevIn i = true ∧ t.toneEn = false)

/-- TOGGLE (R95): code `10`; `toggle()` inverts the line and changes nothing else but the port; the one event that issues it
is a TICK in its step 4. That the command runs as an operation of its own, in every live state, is the model's choice (log
entry 6), and that it is stuck in a faulted state is FaultedBlockDrivesNoCommand. -/
def Obligations.ToggleInvertsLine : Prop :=
  OutCmd.toggle.code = 0b10#2 ∧
  (∀ s : State, s.fault = .none →
    exec .cmdToggle s = .next { s with outLevel := !s.outLevel, outCmd := .toggle }) ∧
  (∀ (w : EventWord) (s t : State), takeEvent w s = .next t → t.outCmd = .toggle →
    ∃ i, w = tickWord i ∧ t.toneEn = true)

/-- SET_OFF twice leaves what SET_OFF leaves; TOGGLE twice restores the level and every other field but the port
(R38, which the spec derives). That a command runs as an operation of its own is the model's choice (log entry 6). -/
def Obligations.SetOffIdempotentToggleInvolutive : Prop :=
  ∀ s : State, s.fault = .none →
    (∃ t, exec .cmdSetOff s = .next t ∧ t.outLevel = false ∧ exec .cmdSetOff t = .next t) ∧
    (∃ t, exec .cmdToggle s = .next t ∧ exec .cmdToggle t = .next { s with outCmd := .toggle })

/-! ## Frames and whole-machine rules -/

/-- The frame of the three events: none of them touches the fault record or the place in the run; RESET may write the four
bits; ARM leaves `prev_in`, `tone_en` and `out_level` (R101); TICK leaves `armed` (R82). The block has no memory (R31). -/
def Obligations.EventsFrame : Prop :=
  ∀ (i : Instr) (s t : State), i.isEvent = true → exec i s = .next t →
    (t.fault = s.fault ∧ t.eventIndex = s.eventIndex ∧ t.inputs = s.inputs) ∧
    (i = .arm → t.prevIn = s.prevIn ∧ t.toneEn = s.toneEn ∧ t.outLevel = s.outLevel) ∧
    (∀ b, i = .tick b → t.armed = s.armed)

/-- The frame of the three output commands: only the port and the level of the line may change, the level only by SET_OFF
and TOGGLE (R93 to R95). -/
def Obligations.CommandsFrame : Prop :=
  ∀ (i : Instr) (s t : State), i.isEvent = false → exec i s = .next t →
    t.armed = s.armed ∧ t.prevIn = s.prevIn ∧ t.toneEn = s.toneEn ∧ t.fault = s.fault ∧
    t.eventIndex = s.eventIndex ∧ t.inputs = s.inputs ∧ (i = .cmdNone → t.outLevel = s.outLevel)

/-- A faulted block drives no command: the three output commands are stuck in a faulted state and leave it as it is. DEDUCED
from R107 and R111 (log entry 6). -/
def Obligations.FaultedBlockDrivesNoCommand : Prop :=
  ∀ (i : Instr) (s : State), i.isEvent = false → s.fault ≠ .none →
    exec i s = .fault .stuck ∧ settle s (exec i s) = s

/-- `tone_en` changes value only in a TICK that samples 1 while `prev_in` is 0, and there it always does; the one exception
is RESET, which makes it 0 (R25, R84; RESET is the spec's own decision D12). -/
def Obligations.ToneChangesOnlyOnEdgeOrReset : Prop :=
  ∀ s t : State, step s = .next t →
    (t.toneEn ≠ s.toneEn →
      ∃ a rest, s.inputs = a :: rest ∧
        ((a.taken = 0b101#3 ∧ s.armed = true ∧ s.prevIn = false) ∨ (a.taken = 0b000#3 ∧ t.toneEn = false))) ∧
    (∀ a rest, s.inputs = a :: rest → a.taken = 0b101#3 → s.prevIn = false → t.toneEn = !s.toneEn)

/-- R27: no event other than TICK and RESET changes `prev_in`, `tone_en` or `out_level`, and where no event is taken every
state bit holds its value. -/
def Obligations.OnlyTickAndResetChangeTone : Prop :=
  ∀ s t : State, step s = .next t →
    (∀ a rest, s.inputs = a :: rest → a.taken ≠ 0b000#3 → (∀ i, a.taken ≠ tickWord i) →
      t.prevIn = s.prevIn ∧ t.toneEn = s.toneEn ∧ t.outLevel = s.outLevel) ∧
    (s.inputs = [] →
      t.armed = s.armed ∧ t.prevIn = s.prevIn ∧ t.toneEn = s.toneEn ∧ t.outLevel = s.outLevel)

/-- The line changes only by a command of a TICK or by RESET, and it reaches 1 only through a TOGGLE from 0
(R19, R96, R97; that the level is state of the block is the spec's own decision D2). -/
def Obligations.LineRisesOnlyByToggle : Prop :=
  ∀ s t : State, step s = .next t → t.outLevel ≠ s.outLevel →
    ∃ a rest, s.inputs = a :: rest ∧
      ((t.outLevel = true ∧ t.outCmd = .toggle ∧ ∃ i, a.taken = tickWord i) ∨
       (t.outLevel = false ∧ (t.outCmd = .toggle ∨ t.outCmd = .setOff) ∧ ∃ i, a.taken = tickWord i) ∨
       (t.outLevel = false ∧ t.outCmd = .none ∧ a.taken = 0b000#3))

/-- `armed` is set by ARM only and cleared by RESET only (R20, R116; the spec's own decision D4). -/
def Obligations.ArmedChangesOnlyByArmAndReset : Prop :=
  ∀ s t : State, step s = .next t →
    (s.armed = false → t.armed = true → ∃ a rest, s.inputs = a :: rest ∧ a.taken = 0b010#3) ∧
    (s.armed = true → t.armed = false → ∃ a rest, s.inputs = a :: rest ∧ a.taken = 0b000#3)

/-! ## Views -/

/-- R22: the three named states over `tone_en` and `out_level`, `prev_in` being orthogonal to the naming. -/
def Obligations.NamedStatesOfTheBits : Prop :=
  ∀ s : State,
    (s.named = some .silent ↔ s.toneEn = false ∧ s.outLevel = false) ∧
    (s.named = some .toneLow ↔ s.toneEn = true ∧ s.outLevel = false) ∧
    (s.named = some .toneHigh ↔ s.toneEn = true ∧ s.outLevel = true) ∧
    (∀ b, ({ s with prevIn := b } : State).named = s.named)

/-- The bits of the status word (R62; the observation is the spec's own decision D13). -/
def Obligations.StatusWordBits : Prop :=
  ∀ s : State, s.status.getLsbD 3 = s.armed ∧ s.status.getLsbD 2 = s.toneEn ∧
    s.status.getLsbD 1 = s.prevIn ∧ s.status.getLsbD 0 = s.outLevel

/-! ## Runs -/

/-- Idempotent silence (R86, which the spec derives): a run of `TICK 0` from a reachable silent state drives only NONE and
leaves the tone and the line off, one NONE per tick where the block is armed; and from any state at all no such run changes
`tone_en`, since it has no edge. -/
def Obligations.SilentTicksStaySilent : Prop :=
  (∀ (n : Nat) (s : State), ResetReachable s → s.toneEn = false →
    (∀ o ∈ (runEvents (List.replicate n 0b100#3) s).observed, o = (.none, false)) ∧
    (s.armed = true → (runEvents (List.replicate n 0b100#3) s).observed = List.replicate n (.none, false)) ∧
    (runEvents (List.replicate n 0b100#3) s).last.toneEn = false ∧
    (runEvents (List.replicate n 0b100#3) s).last.outLevel = false) ∧
  (∀ (n : Nat) (s : State), (runEvents (List.replicate n 0b100#3) s).last.toneEn = s.toneEn)

/-- Toggle rate (R87, which the spec derives): with the tone enabled, N ticks without an edge drive TOGGLE N times, and the
line after the k-th of them is `out_level XOR (k mod 2)`. -/
def Obligations.EnabledTicksAlternateTheLine : Prop :=
  ∀ (bs : List Bit) (s : State), s.fault = .none → s.armed = true → s.toneEn = true → noEdges s.prevIn bs = true →
    (runEvents (bs.map tickWord) s).observed =
        (List.range bs.length).map (fun k => (.toggle, xor s.outLevel (decide ((k + 1) % 2 = 1)))) ∧
      (runEvents (bs.map tickWord) s).last.toneEn = true ∧
      (runEvents (bs.map tickWord) s).endsWell = true

/-- What a run shows, and the bits and the fault record it ends with, depend only on the four bits, the fault record, the
event index and the events: not on the last command on the port and not on what is pending (R90, which the spec derives; R30).
The index is the model's own field (log entry 2); it enters because a stop records it. -/
def Obligations.RunDependsOnBitsAndEvents : Prop :=
  ∀ (ws : List EventWord) (s t : State), s.SameBlock t → s.eventIndex = t.eventIndex →
    (runEvents ws s).observed = (runEvents ws t).observed ∧
    (runEvents ws s).last.SameBlock (runEvents ws t).last

/-- A run from a live state has one observation per event exactly where it ends well (R144; what a run is, is the spec's own
decision D15). That an event that faults or is refused shows no pair is DEDUCED from R12, R107 and R113 (log entry 13). -/
def Obligations.RunObservesEveryEventOrStops : Prop :=
  ∀ (ws : List EventWord) (s : State), s.fault = .none →
    ((runEvents ws s).endsWell = true ↔ (runEvents ws s).observed.length = ws.length) ∧
    (runEvents ws s).observed.length ≤ ws.length

/-- The trace checker accepts the trace a run shows; a trace it accepts is the one its events show, and no row of it carries
the code `11` (R54, which the spec derives; the checker's duty is its decision D6). -/
def Obligations.TraceCheckerAcceptsExactlyRuns : Prop :=
  (∀ (ws : List EventWord) (s : State), checkTrace (traceOf ws s) s = true) ∧
  (∀ (rows : List TraceRow) (s : State), checkTrace rows s = true →
    rows = traceOf (rows.map (·.word)) s ∧ ∀ r ∈ rows, r.code ≠ 0b11#2)

/-- Running the step on the pending arrivals is the run of their event words: it comes to a next state exactly where the run
ends well, and that state is the run's last (R46, R118, R144; log entries 1 and 5). -/
def Obligations.StepRunIsEventRun : Prop :=
  ∀ (l : List Arrival) (s t : State), s.fault = .none →
    (Host.Core.run Sys2Proof.core l.length (s.withInputs l) = .next t ↔
      (runEvents (l.map Arrival.taken) (s.withInputs [])).endsWell = true ∧
      (runEvents (l.map Arrival.taken) (s.withInputs [])).last = t)

/-! ## Invariants -/

/-- The invariant holds in the state a run starts in, whatever is pending. -/
def Obligations.BlockInvHoldsAtReset : Prop :=
  ∀ l : List Arrival, (State.reset.withInputs l).BlockInv

/-- Every step with a next state keeps the invariant, from every state that has it, reachable or not (R24, which the spec
derives; `unarmedQuiet`, `toneToggles` and `offWhileOff` are read from R73, R98 and R99 with log entry 3). -/
def Obligations.StepKeepsBlockInv : Prop :=
  ∀ s t : State, s.BlockInv → step s = .next t → t.BlockInv

/-- R24 and R23, which the spec derives: in every state reachable from reset a high line means an enabled tone, so the state
has a name; the fault record is `none` (R135); and the whole `BlockInv` of StepKeepsBlockInv holds, its clauses on the port
resting on log entry 3. -/
def Obligations.ReachableHighLineMeansTone : Prop :=
  ∀ s : State, ResetReachable s →
    (s.outLevel = true → s.toneEn = true) ∧ s.named.isSome = true ∧ s.fault = .none ∧ s.BlockInv

/-- The status words of the states reachable from reset are exactly these seven (R23, R24, R135, D20). -/
def Obligations.ReachableStatusWords : Prop :=
  ∀ w : StatusWord, (∃ s, ResetReachable s ∧ s.status = w) ↔
    w ∈ [0b0000#4, 0b1000#4, 0b1010#4, 0b1100#4, 0b1101#4, 0b1110#4, 0b1111#4]

/-! ## The split machine -/

/-- The machine that splits a TICK into its five steps (R110, R136, D10; log entry 9). From an idle, armed, live state: a
schedule in which invocations overlap faults with `OVERLAP`; one in which none does runs to its end, and where it ends
between invocations the block is as the atomic ticks of its samples leave it. -/
def Obligations.SplitTicksRefineAtomicTicks : Prop :=
  ∀ (es : List SplitEvent) (s : State), s.fault = .none → s.armed = true →
    (nonOverlapping 0 es = false → ∃ n i, runSplit es ⟨s, .idle⟩ = .fault (.overlap n (tickWord i))) ∧
    (nonOverlapping 0 es = true → ∃ m, runSplit es ⟨s, .idle⟩ = .next m ∧
      m.phase.stepsLeft = stepsLeftAfter 0 es ∧
      (stepsLeftAfter 0 es = 0 → m.base = (runEvents ((samplesOf es).map tickWord) s).last))

/-- In the split machine an invocation that begins while another is in progress faults with `OVERLAP`, code 3 (R110): the record
gets that invocation's word and position and nothing else changes (R107), and no event has a step after it (R111). That the
invocation in progress counts as one place, and that it stays unfinished, is the model's choice (log entry 9). -/
def Obligations.OverlappingTickFaultsAndSticks : Prop :=
  ∀ (m : SplitState) (i : Bit), m.base.fault = .none → m.phase ≠ .idle →
    FaultCode.overlap.number = 3 ∧
    beginTick i m = .fault (.overlap (m.base.eventIndex + 1) (tickWord i)) ∧
    splitSettle m (beginTick i m) =
      { m with base := { m.base with fault := .fault .overlap (m.base.eventIndex + 1) (tickWord i) } } ∧
    (∀ es : List SplitEvent,
      splitAfter es (splitSettle m (beginTick i m)) = splitSettle m (beginTick i m))

/-- Where a schedule's first overlap is the invocation `begin i` after the schedule `pre`, the record the split machine is left
with, whatever follows, holds that invocation's word and its position in the run: the index at the start and one for each
invocation that began before it (R107, R110; that an unfinished one counts is log entry 9). -/
def Obligations.OverlapRecordsItsPosition : Prop :=
  ∀ (pre post : List SplitEvent) (i : Bit) (s : State), s.fault = .none → s.armed = true →
    nonOverlapping 0 pre = true → stepsLeftAfter 0 pre ≠ 0 →
    runSplit (pre ++ .begin i :: post) ⟨s, .idle⟩ =
        .fault (.overlap (s.eventIndex + (samplesOf pre).length) (tickWord i)) ∧
      (splitAfter (pre ++ .begin i :: post) ⟨s, .idle⟩).base.fault =
        .fault .overlap (s.eventIndex + (samplesOf pre).length) (tickWord i)
end

