-- ==== Sys2Proof/Config.lean ====
section
/-! DEFINITION. What is fixed by configuration: the tick period, a parameter that no rule reads (R9, D15). -/

namespace Sys2Proof

/-- `P_TICK_PERIOD` in milliseconds, `OPEN`: a parameter with no value in the model. The reference is about 1.1364 ms and
was not audited (R9, R142). No definition of the machine reads it (log entry 8). -/
opaque Config.pTickPeriod : Rat

/-- Invocations per second (R9). -/
def Config.invocationRate : Rat := 1000 / Config.pTickPeriod

/-- The tone is half the invocation rate (R10, R72). -/
def Config.toneFrequency : Rat := Config.invocationRate / 2

end Sys2Proof
end

