-- ==== Sys2Proof/Laws/Decode.lean ====
section
/-! SUPPORT. The small facts of the decoder that later proofs cite instead of unfolding it: what each word decodes to, and
which word stands behind an event. -/

namespace Sys2Proof

@[simp] theorem decodeEvent_resetWord : decodeEvent resetWord = .ok .reset := by rfl
@[simp] theorem decodeEvent_armWord : decodeEvent armWord = .ok .arm := by rfl

@[simp] theorem decodeEvent_tickWord (i : Bit) : decodeEvent (tickWord i) = .ok (.tick i) := by
  cases i <;> rfl

/-- The two TICK words are different. -/
theorem tickWord_injective {i j : Bit} (h : tickWord i = tickWord j) : i = j := by
  revert h; cases i <;> cases j <;> decide

/-- Every event word is RESET's, ARM's, a TICK's, or one of the four reserved words (R48, R52). -/
theorem eventWord_cases (w : EventWord) :
    w = resetWord ∨ w = armWord ∨ (∃ i, w = tickWord i) ∨
      w = 0b001#3 ∨ w = 0b011#3 ∨ w = 0b110#3 ∨ w = 0b111#3 := by
  have h : ∀ v : EventWord, v = resetWord ∨ v = armWord ∨ (v = tickWord false ∨ v = tickWord true) ∨
      v = 0b001#3 ∨ v = 0b011#3 ∨ v = 0b110#3 ∨ v = 0b111#3 := by decide
  rcases h w with h | h | (h | h) | h
  · exact .inl h
  · exact .inr (.inl h)
  · exact .inr (.inr (.inl ⟨false, h⟩))
  · exact .inr (.inr (.inl ⟨true, h⟩))
  · exact .inr (.inr (.inr h))

theorem decodeEvent_reservedBit {w : EventWord} (h : w = 0b001#3 ∨ w = 0b011#3) :
    decodeEvent w = .error .reservedBit := by
  rcases h with rfl | rfl <;> rfl

theorem decodeEvent_reservedOp {w : EventWord} (h : w = 0b110#3 ∨ w = 0b111#3) :
    decodeEvent w = .error .reservedOp := by
  rcases h with rfl | rfl <;> rfl

/-- A decoded event is RESET, ARM or a TICK, and its word is the encoder's. -/
theorem decodeEvent_ok {w : EventWord} {i : Instr} (h : decodeEvent w = .ok i) :
    (w = resetWord ∧ i = .reset) ∨ (w = armWord ∧ i = .arm) ∨ ∃ b, w = tickWord b ∧ i = .tick b := by
  rcases eventWord_cases w with rfl | rfl | ⟨b, rfl⟩ | hr
  · simp at h; exact .inl ⟨rfl, h.symm⟩
  · simp at h; exact .inr (.inl ⟨rfl, h.symm⟩)
  · simp at h; exact .inr (.inr ⟨b, rfl, h.symm⟩)
  · rcases hr with rfl | rfl | rfl | rfl <;> cases h

@[simp] theorem decodeCommand_code (c : OutCmd) : decodeCommand c.code = some c := by
  cases c <;> rfl

end Sys2Proof
end

