-- ==== Sys2Proof/Laws/State.lean ====
section
/-! SUPPORT. One lemma per field per update of State, and the effect of each command on the level of the line. -/

namespace Sys2Proof.Machine

@[simp] theorem commandLevel_none (l : Bit) : commandLevel .none l = l := rfl
@[simp] theorem commandLevel_setOff (l : Bit) : commandLevel .setOff l = false := rfl
@[simp] theorem commandLevel_toggle (l : Bit) : commandLevel .toggle l = !l := rfl

@[simp] theorem State.drive_armed (s : State) (c : OutCmd) : (s.drive c).armed = s.armed := rfl
@[simp] theorem State.drive_prevIn (s : State) (c : OutCmd) : (s.drive c).prevIn = s.prevIn := rfl
@[simp] theorem State.drive_toneEn (s : State) (c : OutCmd) : (s.drive c).toneEn = s.toneEn := rfl
@[simp] theorem State.drive_outLevel (s : State) (c : OutCmd) : (s.drive c).outLevel = commandLevel c s.outLevel := rfl
@[simp] theorem State.drive_fault (s : State) (c : OutCmd) : (s.drive c).fault = s.fault := rfl
@[simp] theorem State.drive_outCmd (s : State) (c : OutCmd) : (s.drive c).outCmd = c := rfl
@[simp] theorem State.drive_eventIndex (s : State) (c : OutCmd) : (s.drive c).eventIndex = s.eventIndex := rfl
@[simp] theorem State.drive_inputs (s : State) (c : OutCmd) : (s.drive c).inputs = s.inputs := rfl

@[simp] theorem State.setArmed_armed (s : State) (b : Bit) : (s.setArmed b).armed = b := rfl
@[simp] theorem State.setArmed_prevIn (s : State) (b : Bit) : (s.setArmed b).prevIn = s.prevIn := rfl
@[simp] theorem State.setArmed_toneEn (s : State) (b : Bit) : (s.setArmed b).toneEn = s.toneEn := rfl
@[simp] theorem State.setArmed_outLevel (s : State) (b : Bit) : (s.setArmed b).outLevel = s.outLevel := rfl
@[simp] theorem State.setArmed_fault (s : State) (b : Bit) : (s.setArmed b).fault = s.fault := rfl
@[simp] theorem State.setArmed_outCmd (s : State) (b : Bit) : (s.setArmed b).outCmd = s.outCmd := rfl
@[simp] theorem State.setArmed_eventIndex (s : State) (b : Bit) : (s.setArmed b).eventIndex = s.eventIndex := rfl
@[simp] theorem State.setArmed_inputs (s : State) (b : Bit) : (s.setArmed b).inputs = s.inputs := rfl

@[simp] theorem State.latch_armed (s : State) (cur en : Bit) : (s.latch cur en).armed = s.armed := rfl
@[simp] theorem State.latch_prevIn (s : State) (cur en : Bit) : (s.latch cur en).prevIn = cur := rfl
@[simp] theorem State.latch_toneEn (s : State) (cur en : Bit) : (s.latch cur en).toneEn = en := rfl
@[simp] theorem State.latch_outLevel (s : State) (cur en : Bit) : (s.latch cur en).outLevel = s.outLevel := rfl
@[simp] theorem State.latch_fault (s : State) (cur en : Bit) : (s.latch cur en).fault = s.fault := rfl
@[simp] theorem State.latch_outCmd (s : State) (cur en : Bit) : (s.latch cur en).outCmd = s.outCmd := rfl
@[simp] theorem State.latch_eventIndex (s : State) (cur en : Bit) : (s.latch cur en).eventIndex = s.eventIndex := rfl
@[simp] theorem State.latch_inputs (s : State) (cur en : Bit) : (s.latch cur en).inputs = s.inputs := rfl

@[simp] theorem State.clearBits_armed (s : State) : (s.clearBits).armed = false := rfl
@[simp] theorem State.clearBits_prevIn (s : State) : (s.clearBits).prevIn = false := rfl
@[simp] theorem State.clearBits_toneEn (s : State) : (s.clearBits).toneEn = false := rfl
@[simp] theorem State.clearBits_outLevel (s : State) : (s.clearBits).outLevel = false := rfl
@[simp] theorem State.clearBits_fault (s : State) : (s.clearBits).fault = s.fault := rfl
@[simp] theorem State.clearBits_outCmd (s : State) : (s.clearBits).outCmd = s.outCmd := rfl
@[simp] theorem State.clearBits_eventIndex (s : State) : (s.clearBits).eventIndex = s.eventIndex := rfl
@[simp] theorem State.clearBits_inputs (s : State) : (s.clearBits).inputs = s.inputs := rfl

@[simp] theorem State.record_armed (s : State) (r : FaultRecord) : (s.record r).armed = s.armed := rfl
@[simp] theorem State.record_prevIn (s : State) (r : FaultRecord) : (s.record r).prevIn = s.prevIn := rfl
@[simp] theorem State.record_toneEn (s : State) (r : FaultRecord) : (s.record r).toneEn = s.toneEn := rfl
@[simp] theorem State.record_outLevel (s : State) (r : FaultRecord) : (s.record r).outLevel = s.outLevel := rfl
@[simp] theorem State.record_fault (s : State) (r : FaultRecord) : (s.record r).fault = r := rfl
@[simp] theorem State.record_outCmd (s : State) (r : FaultRecord) : (s.record r).outCmd = s.outCmd := rfl
@[simp] theorem State.record_eventIndex (s : State) (r : FaultRecord) : (s.record r).eventIndex = s.eventIndex := rfl
@[simp] theorem State.record_inputs (s : State) (r : FaultRecord) : (s.record r).inputs = s.inputs := rfl

@[simp] theorem State.present_armed (s : State) (a : Arrival) : (s.present a).armed = s.armed := rfl
@[simp] theorem State.present_prevIn (s : State) (a : Arrival) : (s.present a).prevIn = s.prevIn := rfl
@[simp] theorem State.present_toneEn (s : State) (a : Arrival) : (s.present a).toneEn = s.toneEn := rfl
@[simp] theorem State.present_outLevel (s : State) (a : Arrival) : (s.present a).outLevel = s.outLevel := rfl
@[simp] theorem State.present_fault (s : State) (a : Arrival) : (s.present a).fault = s.fault := rfl
@[simp] theorem State.present_outCmd (s : State) (a : Arrival) : (s.present a).outCmd = s.outCmd := rfl
@[simp] theorem State.present_eventIndex (s : State) (a : Arrival) : (s.present a).eventIndex = s.eventIndex := rfl
@[simp] theorem State.present_inputs (s : State) (a : Arrival) : (s.present a).inputs = a :: s.inputs := rfl

@[simp] theorem State.withInputs_armed (s : State) (l : List Arrival) : (s.withInputs l).armed = s.armed := rfl
@[simp] theorem State.withInputs_prevIn (s : State) (l : List Arrival) : (s.withInputs l).prevIn = s.prevIn := rfl
@[simp] theorem State.withInputs_toneEn (s : State) (l : List Arrival) : (s.withInputs l).toneEn = s.toneEn := rfl
@[simp] theorem State.withInputs_outLevel (s : State) (l : List Arrival) : (s.withInputs l).outLevel = s.outLevel := rfl
@[simp] theorem State.withInputs_fault (s : State) (l : List Arrival) : (s.withInputs l).fault = s.fault := rfl
@[simp] theorem State.withInputs_outCmd (s : State) (l : List Arrival) : (s.withInputs l).outCmd = s.outCmd := rfl
@[simp] theorem State.withInputs_eventIndex (s : State) (l : List Arrival) : (s.withInputs l).eventIndex = s.eventIndex := rfl
@[simp] theorem State.withInputs_inputs (s : State) (l : List Arrival) : (s.withInputs l).inputs = l := rfl

@[simp] theorem State.countEvent_armed (s : State) : (s.countEvent).armed = s.armed := rfl
@[simp] theorem State.countEvent_prevIn (s : State) : (s.countEvent).prevIn = s.prevIn := rfl
@[simp] theorem State.countEvent_toneEn (s : State) : (s.countEvent).toneEn = s.toneEn := rfl
@[simp] theorem State.countEvent_outLevel (s : State) : (s.countEvent).outLevel = s.outLevel := rfl
@[simp] theorem State.countEvent_fault (s : State) : (s.countEvent).fault = s.fault := rfl
@[simp] theorem State.countEvent_outCmd (s : State) : (s.countEvent).outCmd = s.outCmd := rfl
@[simp] theorem State.countEvent_eventIndex (s : State) : (s.countEvent).eventIndex = s.eventIndex + 1 := rfl
@[simp] theorem State.countEvent_inputs (s : State) : (s.countEvent).inputs = s.inputs := rfl

@[simp] theorem State.recordStop_none (s : State) : s.recordStop none = s := rfl
@[simp] theorem State.recordStop_some (s : State) (r : FaultRecord) : s.recordStop (some r) = s.record r := rfl

@[simp] theorem State.withInputs_withInputs (s : State) (l m : List Arrival) :
    (s.withInputs l).withInputs m = s.withInputs m := rfl

@[simp] theorem State.withInputs_self (s : State) : s.withInputs s.inputs = s := rfl

end Sys2Proof.Machine
end

