-- ==== Sys2Proof/Laws/Ops.lean ====
section
/-! SUPPORT. What each shared operation can answer, said once: the guard, the end of an event, each event's meaning, and
one event of a run. -/

namespace Sys2Proof.Machine

@[simp] theorem whenLive_live {s : State} (h : s.fault = .none) (o : Host.Outcome State Fault Refusal) :
    whenLive s o = o := if_pos h

@[simp] theorem whenLive_faulted {s : State} (h : s.fault ≠ .none) (o : Host.Outcome State Fault Refusal) :
    whenLive s o = .fault .stuck := if_neg h

/-- The guard answers a next state only in a live state, and then its body's. -/
theorem whenLive_next {s t : State} {o : Host.Outcome State Fault Refusal} (h : whenLive s o = .next t) :
    s.fault = .none ∧ o = .next t := by
  by_cases hl : s.fault = .none
  · exact ⟨hl, by rwa [whenLive_live hl] at h⟩
  · rw [whenLive_faulted hl] at h; cases h

theorem completeEvent_next {o : Host.Outcome State Fault Refusal} {t : State} (h : completeEvent o = .next t) :
    ∃ u, o = .next u ∧ t = u.countEvent := by
  cases o with
  | next u => exact ⟨u, rfl, by simpa [completeEvent] using h.symm⟩
  | fault f => cases h
  | refused r => cases h

theorem execReset_next {s t : State} (h : execReset s = .next t) :
    s.fault = .none ∧ t = s.clearBits.drive .none := by
  obtain ⟨hl, h⟩ := whenLive_next h
  exact ⟨hl, by simpa using h.symm⟩

theorem execArm_next {s t : State} (h : execArm s = .next t) :
    s.fault = .none ∧ s.armed = false ∧ t = (s.setArmed true).drive .none := by
  obtain ⟨hl, h⟩ := whenLive_next h
  cases ha : s.armed with
  | true => rw [if_pos ha] at h; cases h
  | false => exact ⟨hl, rfl, by simpa [ha] using h.symm⟩

theorem execTick_next {i : Bit} {s t : State} (h : execTick i s = .next t) :
    s.fault = .none ∧ s.armed = true ∧ t = onTick i s := by
  obtain ⟨hl, h⟩ := whenLive_next h
  cases ha : s.armed with
  | true => exact ⟨hl, rfl, by simpa [ha] using h.symm⟩
  | false => simp [ha, raise] at h

/-- One event that has a next state is RESET, ARM on an unarmed block, or TICK on an armed one, and this is its state. -/
theorem takeEvent_next {w : EventWord} {s t : State} (h : takeEvent w s = .next t) :
    s.fault = .none ∧
      ((w = resetWord ∧ t = (s.clearBits.drive .none).countEvent) ∨
       (w = armWord ∧ s.armed = false ∧ t = ((s.setArmed true).drive .none).countEvent) ∨
       (∃ i, w = tickWord i ∧ s.armed = true ∧ t = (onTick i s).countEvent)) := by
  obtain ⟨hl, h⟩ := whenLive_next h
  refine ⟨hl, ?_⟩
  cases hd : decodeEvent w with
  | error r => rw [hd] at h; cases r <;> cases h
  | ok i =>
    rw [hd] at h
    obtain ⟨u, hu, rfl⟩ := completeEvent_next h
    rcases decodeEvent_ok hd with ⟨rfl, rfl⟩ | ⟨rfl, rfl⟩ | ⟨b, rfl, rfl⟩
    · obtain ⟨-, rfl⟩ := execReset_next hu
      exact .inl ⟨rfl, rfl⟩
    · obtain ⟨-, ha, rfl⟩ := execArm_next hu
      exact .inr (.inl ⟨rfl, ha, rfl⟩)
    · obtain ⟨-, ha, rfl⟩ := execTick_next hu
      exact .inr (.inr ⟨b, rfl, ha, rfl⟩)

theorem takeEvent_reset {s : State} (hl : s.fault = .none) :
    takeEvent resetWord s = .next (s.clearBits.drive .none).countEvent := by
  simp [takeEvent, hl, exec, execReset, completeEvent]

theorem takeEvent_arm {s : State} (hl : s.fault = .none) (ha : s.armed = false) :
    takeEvent armWord s = .next ((s.setArmed true).drive .none).countEvent := by
  simp [takeEvent, hl, exec, execArm, ha, completeEvent]

theorem takeEvent_tick {s : State} (i : Bit) (hl : s.fault = .none) (ha : s.armed = true) :
    takeEvent (tickWord i) s = .next (onTick i s).countEvent := by
  simp [takeEvent, hl, exec, execTick, ha, completeEvent]

theorem takeEvent_tick_unarmed {s : State} (i : Bit) (hl : s.fault = .none) (ha : s.armed = false) :
    takeEvent (tickWord i) s = .fault (.tickBeforeArm s.eventIndex (tickWord i)) := by
  simp [takeEvent, hl, exec, execTick, ha, raise, FaultCode.toFault, completeEvent]

/-- A live block takes an event in one of five ways: it has a next state, or it stops for one of the four reasons, each
with its word and the state's event index (R114). -/
theorem takeEvent_outcomes (w : EventWord) {s : State} (hl : s.fault = .none) :
    (∃ t, takeEvent w s = .next t) ∨
    ((∃ i, w = tickWord i) ∧ s.armed = false ∧ takeEvent w s = .fault (.tickBeforeArm s.eventIndex w)) ∨
    (w = armWord ∧ s.armed = true ∧ takeEvent w s = .fault (.rearm s.eventIndex w)) ∨
    ((w = 0b001#3 ∨ w = 0b011#3) ∧ takeEvent w s = .refused (.reservedBit s.eventIndex w)) ∨
    ((w = 0b110#3 ∨ w = 0b111#3) ∧ takeEvent w s = .refused (.reservedOp s.eventIndex w)) := by
  rcases eventWord_cases w with rfl | rfl | ⟨i, rfl⟩ | h | h | h | h
  · exact .inl ⟨_, takeEvent_reset hl⟩
  · cases ha : s.armed with
    | false => exact .inl ⟨_, takeEvent_arm hl ha⟩
    | true => exact .inr (.inr (.inl ⟨rfl, rfl, by simp [takeEvent, hl, exec, execArm, ha, raise, FaultCode.toFault, completeEvent]⟩))
  · cases ha : s.armed with
    | false => exact .inr (.inl ⟨⟨i, rfl⟩, rfl, takeEvent_tick_unarmed i hl ha⟩)
    | true => exact .inl ⟨_, takeEvent_tick i hl ha⟩
  · exact .inr (.inr (.inr (.inl ⟨.inl h, by simp [takeEvent, hl, decodeEvent_reservedBit (.inl h), refuse]⟩)))
  · exact .inr (.inr (.inr (.inl ⟨.inr h, by simp [takeEvent, hl, decodeEvent_reservedBit (.inr h), refuse]⟩)))
  · exact .inr (.inr (.inr (.inr ⟨.inl h, by simp [takeEvent, hl, decodeEvent_reservedOp (.inl h), refuse]⟩)))
  · exact .inr (.inr (.inr (.inr ⟨.inr h, by simp [takeEvent, hl, decodeEvent_reservedOp (.inr h), refuse]⟩)))

/-- Writing a stop's record changes the fault record at most. -/
theorem State.recordStop_eq (s : State) (r : Option FaultRecord) : ∃ m, s.recordStop r = s.record m := by
  cases r with
  | none => exact ⟨s.fault, rfl⟩
  | some m => exact ⟨m, rfl⟩

/-- What a stop leaves differs from the state before it in the fault record at most (R107, R113). -/
theorem settle_stop {s : State} {o : Host.Outcome State Fault Refusal} (h : ∀ t, o ≠ .next t) :
    ∃ r, settle s o = s.record r := by
  cases o with
  | next t => exact absurd rfl (h t)
  | fault f => exact s.recordStop_eq f.toRecord
  | refused r => exact s.recordStop_eq r.toRecord

end Sys2Proof.Machine
end

