-- ==== Sys2Proof/Laws/PerInstr.lean ====
section
/-! SUPPORT. Statements per instruction: the word the encoder gives is the one that the match and mask of
spec/opcode_table.json give its row. -/

namespace Sys2Proof.Laws.TableRow

/-- An event row: its word agrees with the match on the mask, and only a TICK has a bit outside the mask. -/
def MatchesEvent (i : Instr) (match3 mask3 : EventWord) : Prop :=
  ∃ w, encode i = .event w ∧ w &&& mask3 = match3

/-- A command row: its code agrees with the match on the mask. -/
def MatchesCommand (i : Instr) (match2 mask2 : CommandCode) : Prop :=
  ∃ c, encode i = .command c ∧ c &&& mask2 = match2

/-- The row of spec/opcode_table.json, by its match and mask. -/
def Statement : Instr → Prop
  | .reset => MatchesEvent .reset 0b000#3 0b111#3
  | .arm => MatchesEvent .arm 0b010#3 0b111#3
  | .tick level => MatchesEvent (.tick level) 0b100#3 0b110#3
  | .cmdNone => MatchesCommand .cmdNone 0b00#2 0b11#2
  | .cmdSetOff => MatchesCommand .cmdSetOff 0b01#2 0b11#2
  | .cmdToggle => MatchesCommand .cmdToggle 0b10#2 0b11#2

theorem reset : Statement .reset := ⟨resetWord, rfl, by decide⟩
theorem arm : Statement .arm := ⟨armWord, rfl, by decide⟩
theorem tick (level : Bit) : Statement (.tick level) := ⟨tickWord level, rfl, by cases level <;> decide⟩
theorem cmdNone : Statement .cmdNone := ⟨OutCmd.none.code, rfl, by decide⟩
theorem cmdSetOff : Statement .cmdSetOff := ⟨OutCmd.setOff.code, rfl, by decide⟩
theorem cmdToggle : Statement .cmdToggle := ⟨OutCmd.toggle.code, rfl, by decide⟩

end Sys2Proof.Laws.TableRow
end

