-- ==== Sys2Proof/Laws/Split.lean ====
section
/-! SUPPORT. What the split machine's operations leave unchanged, and how far an advance brings an invocation. -/

namespace Sys2Proof.Machine

@[simp] theorem advanceTick_fault (m : SplitState) : (advanceTick m).base.fault = m.base.fault := by
  obtain ⟨b, ph⟩ := m
  cases ph <;> simp only [advanceTick] <;> (try split) <;> simp

@[simp] theorem advanceTick_armed (m : SplitState) : (advanceTick m).base.armed = m.base.armed := by
  obtain ⟨b, ph⟩ := m
  cases ph <;> simp only [advanceTick] <;> (try split) <;> simp

@[simp] theorem advanceTick_stepsLeft (m : SplitState) : (advanceTick m).phase.stepsLeft = m.phase.stepsLeft - 1 := by
  obtain ⟨b, ph⟩ := m
  cases ph <;> rfl

/-- An invocation that begins in another faults with OVERLAP, at the place after the one in progress (log entry 9). -/
theorem beginTick_overlaps {m : SplitState} (level : Bit) (hl : m.base.fault = .none) (hp : m.phase ≠ .idle) :
    beginTick level m = .fault (.overlap (m.base.eventIndex + 1) (tickWord level)) := by
  simp [beginTick, beginIndex, hl, hp, FaultCode.toFault]

/-- Where no invocation is in progress an armed live block begins one: the sample is taken and no command is driven yet. -/
theorem beginTick_idle {m : SplitState} (level : Bit) (hl : m.base.fault = .none) (hp : m.phase = .idle)
    (ha : m.base.armed = true) :
    beginTick level m = .next { base := { m.base with outCmd := .none }, phase := .detect level } := by
  simp [beginTick, hl, hp, ha, readLevel]

/-- A faulted split machine is stuck, and its stuck event leaves it as it is (R111). -/
theorem splitStep_faulted {m : SplitState} (h : m.base.fault ≠ .none) (e : SplitEvent) :
    splitStep e m = .fault .stuck ∧ splitSettle m (splitStep e m) = m := by
  have hs : splitStep e m = .fault .stuck := by
    cases e <;> simp [splitStep, beginTick, h]
  exact ⟨hs, by rw [hs]; rfl⟩

/-- Once faulted, a schedule changes nothing more. -/
theorem splitAfter_faulted {m : SplitState} (h : m.base.fault ≠ .none) (es : List SplitEvent) : splitAfter es m = m := by
  induction es with
  | nil => rfl
  | cons e es ih => rw [splitAfter, (splitStep_faulted h e).2, ih]

/-- No steps are left exactly where no invocation is in progress. -/
theorem TickPhase.stepsLeft_eq_zero {ph : TickPhase} : ph.stepsLeft = 0 ↔ ph = .idle := by
  cases ph <;> simp [TickPhase.stepsLeft]

end Sys2Proof.Machine
end

