-- ==== Sys2Proof/Laws/Step.lean ====
section
/-! SUPPORT. What one step of the machine can answer. -/

namespace Sys2Proof.Machine

theorem step_event {s : State} {a : Arrival} {rest : List Arrival} (h : s.inputs = a :: rest) :
    step s = takeEvent a.taken (s.withInputs rest) := by
  simp [step, stepPending, h]

theorem step_waits {s : State} (h : s.inputs = []) : step s = whenLive s (.next s) := by
  simp [step, stepPending, h]

/-- A step with a next state waited with nothing pending, or took the first arrival's event. -/
theorem step_next {s t : State} (h : step s = .next t) :
    (s.fault = .none ∧ s.inputs = [] ∧ t = s) ∨
      ∃ a rest, s.inputs = a :: rest ∧ takeEvent a.taken (s.withInputs rest) = .next t := by
  cases hi : s.inputs with
  | nil =>
    rw [step_waits hi] at h
    obtain ⟨hl, h⟩ := whenLive_next h
    exact .inl ⟨hl, rfl, by simpa using h.symm⟩
  | cons a rest => exact .inr ⟨a, rest, rfl, by rwa [step_event hi] at h⟩

end Sys2Proof.Machine
end

