-- ==== Sys2Proof/Laws/Tick.lean ====
section
/-! SUPPORT. What the five steps of a TICK leave in each field of the state. -/

namespace Sys2Proof.Machine

@[simp] theorem onTick_armed (i : Bit) (s : State) : (onTick i s).armed = s.armed := rfl
@[simp] theorem onTick_prevIn (i : Bit) (s : State) : (onTick i s).prevIn = i := rfl
@[simp] theorem onTick_fault (i : Bit) (s : State) : (onTick i s).fault = s.fault := rfl
@[simp] theorem onTick_eventIndex (i : Bit) (s : State) : (onTick i s).eventIndex = s.eventIndex := rfl
@[simp] theorem onTick_inputs (i : Bit) (s : State) : (onTick i s).inputs = s.inputs := rfl

theorem onTick_toneEn (i : Bit) (s : State) : (onTick i s).toneEn = xor s.toneEn (i && !s.prevIn) := rfl

/-- A tick that leaves the tone enabled drives TOGGLE; one that disables it drives SET_OFF; the others drive NONE. -/
theorem onTick_outCmd (i : Bit) (s : State) :
    (onTick i s).outCmd =
      if (onTick i s).toneEn then .toggle else if risingEdge s.prevIn i then .setOff else .none := rfl

theorem onTick_outLevel (i : Bit) (s : State) :
    (onTick i s).outLevel = commandLevel (onTick i s).outCmd s.outLevel := rfl

end Sys2Proof.Machine
end

