-- ==== Sys2Proof/Laws/Trace.lean ====
section
/-! SUPPORT. The equations of a run, one per outcome of its first event. -/

namespace Sys2Proof.Machine

@[simp] theorem RunResult.prepend_observed (o : OutCmd × Bit) (r : RunResult) :
    (r.prepend o).observed = o :: r.observed := rfl

@[simp] theorem RunResult.prepend_last (o : OutCmd × Bit) (r : RunResult) : (r.prepend o).last = r.last := rfl

@[simp] theorem RunResult.prepend_endsWell (o : OutCmd × Bit) (r : RunResult) :
    (r.prepend o).endsWell = r.endsWell := rfl

@[simp] theorem runEvents_nil (s : State) : runEvents [] s = { observed := [], last := s } := rfl

theorem runEvents_next {w : EventWord} {s t : State} (h : takeEvent w s = .next t) (ws : List EventWord) :
    runEvents (w :: ws) s = (runEvents ws t).prepend t.observation := by
  simp only [runEvents, h]

/-- A run whose first event stops is over: it shows nothing more, and its last state is what the stop leaves (R111). -/
theorem runEvents_stop {w : EventWord} {s : State} (h : ∀ t, takeEvent w s ≠ .next t) (ws : List EventWord) :
    runEvents (w :: ws) s = { observed := [], last := settle s (takeEvent w s) } := by
  cases ho : takeEvent w s with
  | next t => exact absurd ho (h t)
  | fault f => simp only [runEvents, ho]
  | refused r => simp only [runEvents, ho]

end Sys2Proof.Machine
end

