-- ==== Sys2Proof/Tests/Slice0.lean ====
section
/-! SUPPORT. Small tests: the words of the spec's encodings, the refused fields, one step per case from the vectors of
spec/95_test_vectors.md, and a witness for the hypotheses of each statement. -/

namespace Sys2Proof.Machine.Tests

/-- A live state `(armed, prev_in, tone_en, out_level)` in the notation of R59. -/
def blk (a p t o : Bit) : State :=
  { State.reset with armed := a, prevIn := p, toneEn := t, outLevel := o }

/-- The next state of an outcome, if it has one. -/
def nextOf (o : Host.Outcome State Fault Refusal) : Option State :=
  match o with
  | .next t => some t
  | _ => none

/-- The fault of an outcome, if it has one. -/
def faultOf (o : Host.Outcome State Fault Refusal) : Option Fault :=
  match o with
  | .fault f => some f
  | _ => none

/-- The refusal of an outcome, if it has one. -/
def refusalOf (o : Host.Outcome State Fault Refusal) : Option Refusal :=
  match o with
  | .refused r => some r
  | _ => none

/-- The trace entry of an outcome: the tuple after it and the command (R59). -/
def entry (o : Host.Outcome State Fault Refusal) : Option ((Bit × Bit × Bit × Bit) × OutCmd) :=
  (nextOf o).map fun t => (t.tuple, t.outCmd)

/-! ## WellFormed smoke test: the ill-formed fields of R52 and R54 -/

theorem test_check_refuses_reserved_op : EventFields.check ⟨0b11#2, false⟩ = some .reservedOp := by decide
theorem test_check_refuses_reserved_op_first : EventFields.check ⟨0b11#2, true⟩ = some .reservedOp := by decide
theorem test_check_refuses_reset_with_bit : EventFields.check ⟨0b00#2, true⟩ = some .reservedBit := by decide
theorem test_check_refuses_arm_with_bit : EventFields.check ⟨0b01#2, true⟩ = some .reservedBit := by decide
theorem test_check_takes_tick : EventFields.wellFormed ⟨0b10#2, true⟩ = true := by decide
theorem test_command_code_11_refused : CommandCode.wellFormed 0b11#2 = false := by decide
theorem test_command_code_10_taken : CommandCode.wellFormed 0b10#2 = true := by decide

/-! ## Words written out from R49 to R53 -/

theorem test_decode_reset : decode (.event 0b000#3) = .instr .reset := by decide
theorem test_decode_arm : decode (.event 0b010#3) = .instr .arm := by decide
theorem test_decode_tick_0 : decode (.event 0b100#3) = .instr (.tick false) := by decide
theorem test_decode_tick_1 : decode (.event 0b101#3) = .instr (.tick true) := by decide
theorem test_decode_none : decode (.command 0b00#2) = .instr .cmdNone := by decide
theorem test_decode_set_off : decode (.command 0b01#2) = .instr .cmdSetOff := by decide
theorem test_decode_toggle : decode (.command 0b10#2) = .instr .cmdToggle := by decide
theorem test_decode_001 : decode (.event 0b001#3) = .refuse .reservedBit := by decide
theorem test_decode_110 : decode (.event 0b110#3) = .refuse .reservedOp := by decide
theorem test_table_word_tick : decodeTableWord 8 5 = some (.tick true) := by decide
theorem test_table_word_above : decodeTableWord 8 8 = none := by decide
theorem test_table_word_command : decodeTableWord 2 1 = some .cmdSetOff := by decide

/-- The encoding line of program P7 in spec/95_test_vectors.md without its reserved word: `000 010 101 100`. -/
theorem test_split_words :
    splitWords [false, false, false, false, true, false, true, false, true, true, false, false] =
      some [0b000#3, 0b010#3, 0b101#3, 0b100#3] := by decide
theorem test_split_words_leftover : splitWords [true, false, true, true] = none := by decide

/-! ## One step, from the vectors of spec/95_test_vectors.md -/

/-- V-T2. -/
theorem test_tick_enables : entry (exec (.tick true) (blk true false false false)) =
    some ((true, true, true, true), .toggle) := by decide
/-- V-T8. -/
theorem test_tick_disables_high : entry (exec (.tick true) (blk true false true true)) =
    some ((true, true, false, false), .setOff) := by decide
/-- V-T17. -/
theorem test_tick_before_arm : faultOf (exec (.tick false) (blk false false false false)) =
    some (.tickBeforeArm 0 0b100#3) := by decide
/-- V-R2. -/
theorem test_reset : entry (exec .reset (blk true true true true)) =
    some ((false, false, false, false), .none) := by decide
/-- V-R4. -/
theorem test_arm : entry (exec .arm (blk false false false false)) =
    some ((true, false, false, false), .none) := by decide
/-- V-R6. -/
theorem test_rearm : faultOf (exec .arm (blk true true true true)) = some (.rearm 0 0b010#3) := by decide
/-- V-O2. -/
theorem test_none : entry (exec .cmdNone (blk true false true true)) =
    some ((true, false, true, true), .none) := by decide
/-- V-O4. -/
theorem test_set_off : entry (exec .cmdSetOff (blk true false true true)) =
    some ((true, false, true, false), .setOff) := by decide
/-- V-O5. -/
theorem test_toggle : entry (exec .cmdToggle (blk true false true false)) =
    some ((true, false, true, true), .toggle) := by decide
/-- P7, event 3. -/
theorem test_reserved_word : refusalOf (step ((blk true true true true).present (.word 0b110#3))) =
    some (.reservedOp 0 0b110#3) := by decide
/-- V-R7. -/
theorem test_faulted_reset :
    faultOf (step (((blk true true true true).record (.fault .rearm 4 0b010#3)).present (.word 0b000#3))) =
      some .stuck := by decide
/-- P4: the fault record of the second event. -/
theorem test_p4_record : (runEvents [0b000#3, 0b101#3, 0b010#3] State.reset).last =
    { State.reset with eventIndex := 1, fault := .fault .tickBeforeArm 1 0b101#3 } := by decide

theorem test_fetch_reset_row : nextOf (step (State.reset.withFetchWord 8 0)) =
    some { State.reset with eventIndex := 1 } := by decide
theorem test_fetch_arm_row : nextOf (step (State.reset.withFetchWord 8 2)) =
    some { State.reset with armed := true, eventIndex := 1 } := by decide

theorem test_fault_code_numbers : [FaultCode.tickBeforeArm, .rearm, .overlap].map FaultCode.number = [1, 2, 3] := by decide

theorem test_status : (blk true false true false).status = 0b1100#4 := by decide

/-! ## The assembler, from R57 and R58 -/

theorem test_assemble_comment :
    assembleLine ['T', 'I', 'C', 'K', ' ', 'T', ' ', ';', ' ', 'x'] = some [.tick true] := by decide
theorem test_assemble_lines :
    assemble [['R', 'E', 'S', 'E', 'T'], ['A', 'R', 'M'], ['T', 'I', 'C', 'K', 'S', ' ', '1', ' ', '0']] =
      some [0b000#3, 0b010#3, 0b101#3, 0b100#3] := by decide
theorem test_assemble_tick_two_samples : assembleLine ['T', 'I', 'C', 'K', ' ', '0', ' ', '1'] = none := by decide

/-! ## The trace checker, from R54 -/

theorem test_trace_11_rejected : checkTrace [⟨0b000#3, 0b11#2, false⟩] State.reset = false := by decide
theorem test_trace_own_accepted : checkTrace [⟨0b010#3, 0b00#2, false⟩, ⟨0b101#3, 0b10#2, true⟩] State.reset = true := by
  decide

/-! ## Witnesses: the hypotheses of each statement are met -/

theorem witness_EventStreamRoundTrips : ∀ i ∈ [Instr.reset, .arm, .tick true], i.isEvent = true := by decide
theorem witness_TicksLineExpandsToTicks : [true] ≠ ([] : List Bit) := by decide

theorem witness_StepRunsThePendingEvent :
    ((blk true false false false).present (.word 0b101#3)).fault = .none ∧
    ((blk true false false false).present (.word 0b101#3)).inputs = .word 0b101#3 :: [] ∧
    decodeEvent 0b101#3 = .ok (.tick true) := ⟨rfl, rfl, rfl⟩

theorem witness_StepWaitsWithNothingPending : (blk true true false false).fault = .none ∧
    (blk true true false false).inputs = [] := by decide

theorem witness_ResetWinsOverSimultaneousEvent :
    ((blk true true true true).present (.resetWith 0b101#3)).fault = .none ∧
    ((blk true true true true).present (.resetWith 0b101#3)).inputs = .resetWith 0b101#3 :: [] := by decide

theorem witness_ReservedWordsAreRefused_bit :
    ((blk true true true true).present (.word 0b001#3)).fault = .none ∧
    ((blk true true true true).present (.word 0b001#3)).inputs = .word 0b001#3 :: [] ∧
    (0b001#3 = (0b001#3 : EventWord) ∨ 0b001#3 = (0b011#3 : EventWord)) := by decide
theorem witness_ReservedWordsAreRefused_op :
    ((blk true true true true).present (.word 0b111#3)).fault = .none ∧
    ((blk true true true true).present (.word 0b111#3)).inputs = .word 0b111#3 :: [] ∧
    (0b111#3 = (0b110#3 : EventWord) ∨ 0b111#3 = (0b111#3 : EventWord)) := by decide

theorem witness_FaultedStateHasNoStep : (State.reset.record (.fault .rearm 1 0b010#3)).fault ≠ .none := by decide

theorem witness_FaultedBlockDrivesNoCommand : Instr.cmdToggle.isEvent = false ∧
    (State.reset.record (.fault .rearm 1 0b010#3)).fault ≠ .none := by decide

theorem witness_StopsRecordTheirEvent_fault :
    faultOf (step (State.reset.present (.word 0b100#3))) = some (.tickBeforeArm 0 0b100#3) := by decide
theorem witness_StopsRecordTheirEvent_refusal :
    refusalOf (step (State.reset.present (.word 0b011#3))) = some (.reservedBit 0 0b011#3) := by decide

theorem witness_FaultRecordKeepsFittingWord :
    (State.reset.record (.refused .reservedOp 3 0b110#3)).fault.wellFormed = true := by decide

/-- A live state: the hypothesis of ResetClearsTheBlock, BootOrderIsEnforced, TickIsAllOrNothing, the output commands,
RunObservesEveryEventOrStops and StepRunIsEventRun. -/
theorem witness_live : (blk true true true true).fault = .none := by decide

/-- A live unarmed state: ArmSetsArmed, UnarmedTickFaults. -/
theorem witness_unarmed : (blk false false false false).fault = .none ∧ (blk false false false false).armed = false := by
  decide

/-- A live armed state: SecondArmFaults, the TICK statements, SplitTicksRefineAtomicTicks. -/
theorem witness_armed : (blk true false true true).fault = .none ∧ (blk true false true true).armed = true := by decide

theorem witness_flip_edge : risingEdge (blk true false true true).prevIn true = true := by decide
theorem witness_flip_no_edge : ¬((blk true true true true).prevIn = false ∧ true = true) := by decide
theorem witness_disabling_from_low : risingEdge (blk true false true false).prevIn true = true ∧
    (blk true false true false).toneEn = true := by decide
theorem witness_enabling_from_silent : risingEdge (blk true false false false).prevIn true = true ∧
    (blk true false false false).toneEn = false := by decide
/-- DisabledTickLeavesLine: a tick that leaves the tone off and issues nothing (V-T9). -/
theorem witness_disabled_nothing : entry (exec (.tick false) (blk true true false false)) =
    some ((true, false, false, false), .none) := by decide

theorem witness_TickTableHolds :
    ((blk true false false true).prevIn, (blk true false false true).toneEn, (blk true false false true).outLevel) =
      (false, false, true) ∧ ((false, false, true, true), (true, true, false, OutCmd.toggle)) ∈ tickTable := by decide

theorem witness_takeEvent_none : (nextOf (takeEvent 0b100#3 (blk true true false false))).map (·.outCmd) =
    some .none := by decide
theorem witness_takeEvent_setOff : (nextOf (takeEvent 0b101#3 (blk true false true false))).map (·.outCmd) =
    some .setOff := by decide
theorem witness_takeEvent_toggle : (nextOf (takeEvent 0b101#3 (blk true false false false))).map (·.outCmd) =
    some .toggle := by decide

theorem witness_EventsFrame_reset : Instr.reset.isEvent = true ∧ (nextOf (exec .reset (blk true true true true))).isSome := by
  decide
theorem witness_EventsFrame_arm : Instr.arm.isEvent = true ∧ (nextOf (exec .arm (blk false true true true))).isSome := by
  decide
theorem witness_EventsFrame_tick :
    (Instr.tick true).isEvent = true ∧ (nextOf (exec (.tick true) (blk true true true true))).isSome := by decide
theorem witness_CommandsFrame_none :
    Instr.cmdNone.isEvent = false ∧ (nextOf (exec .cmdNone (blk true true true true))).isSome := by decide
theorem witness_CommandsFrame_setOff :
    Instr.cmdSetOff.isEvent = false ∧ (nextOf (exec .cmdSetOff (blk true true true true))).isSome := by decide
theorem witness_CommandsFrame_toggle :
    Instr.cmdToggle.isEvent = false ∧ (nextOf (exec .cmdToggle (blk true true true true))).isSome := by decide

/-- ToneChangesOnlyOnEdgeOrReset: the tone changes by an edge. -/
theorem witness_tone_by_edge : (nextOf (step ((blk true false false false).present (.word 0b101#3)))).map (·.toneEn) =
    some true := by decide
/-- ToneChangesOnlyOnEdgeOrReset and LineRisesOnlyByToggle: tone and line fall by RESET. -/
theorem witness_tone_by_reset : (nextOf (step ((blk true false true true).present (.word 0b000#3)))).map (·.tuple) =
    some (false, false, false, false) := by decide
/-- OnlyTickAndResetChangeTone: the third event, ARM. -/
theorem witness_arm_step : (nextOf (step ((blk false false false false).present (.word 0b010#3)))).isSome = true ∧
    Arrival.taken (.word 0b010#3) ≠ 0b000#3 ∧ ∀ i, Arrival.taken (.word 0b010#3) ≠ tickWord i := by decide
/-- OnlyTickAndResetChangeTone: no event. -/
theorem witness_waiting_step : nextOf (step (blk true true true false)) = some (blk true true true false) := by decide
/-- LineRisesOnlyByToggle: the line falls by a TOGGLE. -/
theorem witness_line_falls : (nextOf (step ((blk true true true true).present (.word 0b101#3)))).map State.observation =
    some (.toggle, false) := by decide

/-- SilentTicksStaySilent: a reachable state, silent and armed. -/
theorem witness_SilentTicksStaySilent :
    ResetReachable ((State.reset.setArmed true).countEvent) ∧ ((State.reset.setArmed true).countEvent).toneEn = false ∧
      ((State.reset.setArmed true).countEvent).armed = true :=
  ⟨.event (.start [.word 0b010#3]) rfl, rfl, rfl⟩

theorem witness_EnabledTicksAlternateTheLine :
    (blk true true true true).fault = .none ∧ (blk true true true true).armed = true ∧
      (blk true true true true).toneEn = true ∧ noEdges (blk true true true true).prevIn [true, true, false, false] = true := by
  decide

/-- Two states with one block that differ in the port and in what is pending. -/
theorem witness_RunDependsOnBitsAndEvents :
    (blk true false true false).SameBlock (((blk true false true true).drive .toggle).present (.word 0b000#3)) ∧
      (blk true false true false).eventIndex =
        (((blk true false true true).drive .toggle).present (.word 0b000#3)).eventIndex :=
  ⟨⟨rfl, rfl, rfl, rfl, rfl⟩, rfl⟩

/-- StepKeepsBlockInv: a state with the invariant and an event with a next state. -/
theorem witness_StepKeepsBlockInv :
    ((blk true false false false).present (.word 0b101#3)).BlockInv ∧
      (nextOf (step ((blk true false false false).present (.word 0b101#3)))).isSome = true :=
  ⟨⟨by decide, by decide, by decide, by decide⟩, by decide⟩

/-- ReachableHighLineMeansTone: a reachable state with the line high (ARM, TICK 1). -/
theorem witness_ReachableHighLineMeansTone :
    ∃ s, ResetReachable s ∧ s.outLevel = true :=
  ⟨_, .event (.event (.start [.word 0b010#3, .word 0b101#3]) rfl) rfl, rfl⟩

theorem witness_SplitTicksRefineAtomicTicks_overlap :
    nonOverlapping 0 [.begin true, .advance, .begin false] = false := by decide
/-- OverlappingTickFaultsAndSticks: an invocation is in progress. -/
theorem witness_OverlappingTickFaultsAndSticks :
    (SplitState.mk (blk true false false false) (.detect true)).base.fault = .none ∧
      (SplitState.mk (blk true false false false) (.detect true)).phase ≠ .idle := by decide
/-- OverlapRecordsItsPosition: one invocation complete, a second in progress, when the third begins. -/
theorem witness_OverlapRecordsItsPosition :
    nonOverlapping 0 [.begin true, .advance, .advance, .advance, .advance, .begin false] = true ∧
      stepsLeftAfter 0 [.begin true, .advance, .advance, .advance, .advance, .begin false] ≠ 0 := by decide
/-- R107: TICK 1 is event 0 of this run and the TICK 0 that overlaps it is event 1. -/
theorem test_overlap_record :
    (splitAfter [.begin true, .begin false, .advance] ⟨blk true false false false, .idle⟩).base.fault =
      .fault .overlap 1 0b100#3 := by decide
theorem witness_SplitTicksRefineAtomicTicks_complete :
    nonOverlapping 0 [.begin true, .advance, .advance, .advance, .advance] = true ∧
      stepsLeftAfter 0 [.begin true, .advance, .advance, .advance, .advance] = 0 := by decide

end Sys2Proof.Machine.Tests
end

section
/-! Proofs of the statements on the state bits: which events may write them (R27) and the names they give the state (R22). -/

namespace Sys2Proof.Machine

/-! ## Events other than RESET and TICK -/

/-- Of the three events only ARM is left where RESET and TICK are excluded (R48), and this is its state (R99). -/
theorem takeEvent_next_of_ne_reset_of_ne_tick {w : EventWord} {s t : State} (h : takeEvent w s = .next t)
    (hreset : w ≠ resetWord) (htick : ∀ i, w ≠ tickWord i) :
    t = ((s.setArmed true).drive .none).countEvent := by
  obtain ⟨-, ⟨hw, -⟩ | ⟨-, -, ht⟩ | ⟨i, hw, -⟩⟩ := takeEvent_next h
  · exact absurd hw hreset
  · exact ht
  · exact absurd hw (htick i)

/-- Settles O36: a step waits and keeps its state, or takes an event, which is ARM where RESET and TICK are excluded. -/
theorem onlyTickAndResetChangeTone : Obligations.OnlyTickAndResetChangeTone := by
  intro s t h
  obtain ⟨-, hwait, rfl⟩ | ⟨a, rest, hpending, hevent⟩ := step_next h
  · exact ⟨fun b l hbl => by simp [hwait] at hbl, fun _ => ⟨rfl, rfl, rfl, rfl⟩⟩
  · refine ⟨fun b l hbl hreset htick => ?_, fun hnil => by simp [hpending] at hnil⟩
    obtain ⟨rfl, rfl⟩ : a = b ∧ rest = l := by simpa [hpending] using hbl
    rw [takeEvent_next_of_ne_reset_of_ne_tick hevent hreset htick]
    simp

/-! ## The named states -/

/-- The values of `tone_en` and `out_level` that a name stands for (R22). -/
def NamedState.bits : NamedState → Bit × Bit
  | .silent => (false, false)
  | .toneLow => (true, false)
  | .toneHigh => (true, true)

/-- A state has a name exactly where its `tone_en` and `out_level` are the name's bits. -/
theorem State.named_eq_some_iff (s : State) (n : NamedState) :
    s.named = some n ↔ (s.toneEn, s.outLevel) = n.bits := by
  cases htone : s.toneEn <;> cases hlevel : s.outLevel <;> cases n <;>
    simp [State.named, NamedState.bits, htone, hlevel]

/-- Settles O39: each name's bits, and a name that never reads `prev_in`. -/
theorem namedStatesOfTheBits : Obligations.NamedStatesOfTheBits := by
  intro s
  refine ⟨?silent, ?toneLow, ?toneHigh, fun _ => rfl⟩
  case silent => simpa [NamedState.bits] using s.named_eq_some_iff .silent
  case toneLow => simpa [NamedState.bits] using s.named_eq_some_iff .toneLow
  case toneHigh => simpa [NamedState.bits] using s.named_eq_some_iff .toneHigh

end Sys2Proof.Machine
end

section
/-! Proofs of the statements on TICK: the whole next state of an armed block (R66 to R71), and from it the flip, each of the
three commands with the level it leaves, and the remembered sample. -/

namespace Sys2Proof.Machine

/-! ## What a TICK answers and what its steps leave -/

/-- The precondition of R64 is met: the five steps run and commit together (R73, R140). -/
theorem exec_tick_of_armed {s : State} (i : Bit) (hlive : s.fault = .none) (harmed : s.armed = true) :
    exec (.tick i) s = .next (onTick i s) := by
  simp [exec, execTick, hlive, harmed]

theorem risingEdge_eq_true_iff (prevIn cur : Bit) :
    risingEdge prevIn cur = true ↔ prevIn = false ∧ cur = true := by
  simp [risingEdge, and_comm]

/-- Step 4 alone issues TOGGLE, and its condition is `en` (R69). -/
theorem tickCommand_eq_toggle_iff (edge en : Bit) : tickCommand edge en = .toggle ↔ en = true := by
  cases en <;> cases edge <;> simp [tickCommand]

/-- Step 3 alone issues SET_OFF (R68). -/
theorem tickCommand_eq_setOff_iff (edge en : Bit) :
    tickCommand edge en = .setOff ↔ edge = true ∧ en = false := by
  cases en <;> cases edge <;> simp [tickCommand]

/-- The level of the line after steps 3 and 4, one branch per command (R68, R69, R70). -/
theorem commandLevel_tickCommand (edge en level : Bit) :
    commandLevel (tickCommand edge en) level = if en then !level else if edge then false else level := by
  simp only [tickCommand, apply_ite (commandLevel · level), commandLevel_toggle, commandLevel_setOff,
    commandLevel_none]

/-- A rising edge flips the tone, from either value (R67). -/
theorem onTick_toneEn_of_edge {i : Bit} {s : State} (hedge : risingEdge s.prevIn i = true) :
    (onTick i s).toneEn = !s.toneEn := by
  rw [onTick_toneEn, ← risingEdge, hedge, Bool.xor_true]

/-- Without a rising edge the tone is kept (R67). -/
theorem onTick_toneEn_of_not_edge {i : Bit} {s : State} (hedge : ¬risingEdge s.prevIn i = true) :
    (onTick i s).toneEn = s.toneEn := by
  rw [onTick_toneEn, ← risingEdge, eq_false_of_ne_true hedge, Bool.xor_false]

theorem onTick_outCmd_eq_toggle_iff (i : Bit) (s : State) :
    (onTick i s).outCmd = .toggle ↔ (onTick i s).toneEn = true :=
  tickCommand_eq_toggle_iff _ _

theorem onTick_outCmd_eq_setOff_iff (i : Bit) (s : State) :
    (onTick i s).outCmd = .setOff ↔ risingEdge s.prevIn i = true ∧ (onTick i s).toneEn = false :=
  tickCommand_eq_setOff_iff _ _

/-- An edge leaves the tone disabled exactly where it was enabled before (R68). -/
theorem onTick_edge_disables_iff (i : Bit) (s : State) :
    risingEdge s.prevIn i = true ∧ (onTick i s).toneEn = false ↔
      risingEdge s.prevIn i = true ∧ s.toneEn = true := by
  refine and_congr_right fun hedge => ?_
  rw [onTick_toneEn_of_edge hedge, Bool.not_eq_false']

/-! ## The statements -/

/-- Settles O19: the five steps as one record, the command's effect on the line written out. -/
theorem tickFollowsTheAlgorithm : Obligations.TickFollowsTheAlgorithm := by
  intro s i hlive harmed
  rw [exec_tick_of_armed i hlive harmed]
  simp only [← commandLevel_tickCommand]
  rfl

/-- Settles O21: the edge is the pair (0, 1), and the commands read the tone it has flipped. -/
theorem tickFlipsToneOnRisingEdge : Obligations.TickFlipsToneOnRisingEdge := by
  intro s i hlive harmed
  have hpair := risingEdge_eq_true_iff s.prevIn i
  exact ⟨onTick i s, exec_tick_of_armed i hlive harmed, rfl, hpair, onTick_toneEn i s,
    fun hedge => onTick_toneEn_of_edge (hpair.mpr hedge),
    fun hkept => onTick_toneEn_of_not_edge (mt hpair.mp hkept),
    onTick_outCmd_eq_setOff_iff i s, onTick_outCmd_eq_toggle_iff i s⟩

/-- Settles O22: an edge on an enabled tone drives SET_OFF, which puts the line at 0 from any level. -/
theorem disablingTickForcesOff : Obligations.DisablingTickForcesOff := by
  intro s i hlive harmed
  have hcmd := onTick_outCmd_eq_setOff_iff i s
  have hdisables := onTick_edge_disables_iff i s
  refine ⟨onTick i s, exec_tick_of_armed i hlive harmed, hcmd, hdisables, fun h => ?_⟩
  rw [onTick_outLevel, hcmd.mpr (hdisables.mpr h), commandLevel_setOff]

/-- Settles O23: TOGGLE follows the flipped tone, so the edge that enables it toggles already. -/
theorem enabledTickToggles : Obligations.EnabledTickToggles := by
  intro s i hlive harmed
  have hcmd := onTick_outCmd_eq_toggle_iff i s
  refine ⟨onTick i s, exec_tick_of_armed i hlive harmed, hcmd, fun hen => ?level, fun ⟨hedge, hoff⟩ => ?enabling⟩
  case level => rw [onTick_outLevel, hcmd.mpr hen, commandLevel_toggle]
  case enabling => rw [hcmd, onTick_toneEn_of_edge hedge, hoff, Bool.not_false]

/-- Settles O24: with TOGGLE and SET_OFF excluded only NONE is left, which keeps the level. -/
theorem disabledTickLeavesLine : Obligations.DisabledTickLeavesLine := by
  intro s i hlive harmed
  have hnotToggle : (onTick i s).toneEn = false → (onTick i s).outCmd ≠ .toggle := fun hen hcmd => by
    simp [(onTick_outCmd_eq_toggle_iff i s).mp hcmd] at hen
  refine ⟨onTick i s, exec_tick_of_armed i hlive harmed, hnotToggle, fun hen hnotSetOff => ?_⟩
  have hnone : (onTick i s).outCmd = .none := by
    cases hcmd : (onTick i s).outCmd with
    | none => rfl
    | setOff => exact absurd hcmd hnotSetOff
    | toggle => exact absurd hcmd (hnotToggle hen)
  exact ⟨hnone, by rw [onTick_outLevel, hnone, commandLevel_none]⟩

/-- Settles O25: step 5 runs on every armed TICK, whatever the flags were. -/
theorem tickRemembersSample : Obligations.TickRemembersSample := by
  intro s i hlive harmed
  exact ⟨onTick i s, exec_tick_of_armed i hlive harmed, onTick_prevIn i s⟩

end Sys2Proof.Machine
end

section
/-! Proofs of the statements on exceptions: a faulted state has no step (R111), and a TICK completes or faults with nothing
written (R121). -/

namespace Sys2Proof.Machine

/-! ## The faulted state -/

/-- The first check of R114 stops every event word, before it is decoded. -/
theorem takeEvent_of_faulted {s : State} (h : s.fault ≠ .none) (w : EventWord) : takeEvent w s = .fault .stuck :=
  whenLive_faulted h _

/-- Each of the six meanings stands behind the guard of R111, the three commands' as well (log entry 6). -/
theorem exec_of_faulted {s : State} (h : s.fault ≠ .none) (i : Instr) : exec i s = .fault .stuck := by
  cases i with
  | reset | arm | tick | cmdNone | cmdSetOff | cmdToggle => exact whenLive_faulted h _

/-- Waiting is guarded too, so a faulted block is stuck whatever is pending. -/
theorem step_of_faulted {s : State} (h : s.fault ≠ .none) : step s = .fault .stuck := by
  cases hpending : s.inputs with
  | nil => rw [step_waits hpending, whenLive_faulted h]
  | cons a rest => rw [step_event hpending, takeEvent_of_faulted (by simpa using h)]

@[simp] theorem settle_stuck (s : State) : settle s (.fault .stuck) = s := rfl

/-- A run that starts faulted is quiescent: its first event is stuck, and nothing follows it. -/
theorem runEvents_of_faulted {s : State} (h : s.fault ≠ .none) (ws : List EventWord) :
    runEvents ws s = { observed := [], last := s } := by
  cases ws with
  | nil => exact runEvents_nil s
  | cons w ws =>
    have hstuck := takeEvent_of_faulted h w
    rw [runEvents_stop (by simp [hstuck]), hstuck, settle_stuck]

/-- Settles O10: step, event words, instructions and runs all meet the guard of a faulted state. -/
theorem faultedStateHasNoStep : Obligations.FaultedStateHasNoStep := by
  intro s h
  refine ⟨step_of_faulted h, ?settled, takeEvent_of_faulted h, fun i _ => exec_of_faulted h i, fun ws => ?run⟩
  case settled => rw [step_of_faulted h, settle_stuck]
  case run => simp [runEvents_of_faulted h ws]

/-! ## A TICK is all or nothing -/

/-- The precondition of R64 fails: TICK_BEFORE_ARM is raised before step 1 (R108). -/
theorem exec_tick_of_unarmed {s : State} (i : Bit) (hlive : s.fault = .none) (hunarmed : s.armed = false) :
    exec (.tick i) s = .fault (.tickBeforeArm s.eventIndex (tickWord i)) := by
  simp [exec, execTick, hlive, hunarmed, raise, FaultCode.toFault]

/-- Settles O26: armed, the next state is that of all five steps; unarmed, only the record of TICK_BEFORE_ARM is left. -/
theorem tickIsAllOrNothing : Obligations.TickIsAllOrNothing := by
  intro s i hlive
  obtain harmed | hunarmed := Bool.eq_false_or_eq_true s.armed
  · exact .inl ⟨harmed, onTick i s, exec_tick_of_armed i hlive harmed, onTick_prevIn i s, onTick_toneEn i s,
      onTick_outLevel i s, onTick_outCmd i s⟩
  · rw [exec_tick_of_unarmed i hlive hunarmed]
    exact .inr ⟨hunarmed, _, rfl, .fault .tickBeforeArm s.eventIndex (tickWord i), rfl⟩

end Sys2Proof.Machine
end

section
/-! Proofs of the statements on words: the two formats decode and encode one to one (R48 to R53), a program of events
survives the string of its 3-bit words (R56), and a TICKS line assembles to its ticks (R58). -/

namespace Sys2Proof

/-! ## One word per operation -/

/-- A code names a command exactly where it is the command's own code (R53). -/
theorem decodeCommand_eq_some_iff {c : CommandCode} {k : OutCmd} : decodeCommand c = some k ↔ c = k.code := by
  cases k <;> revert c <;> decide

theorem encode_toInstr (k : OutCmd) : encode k.toInstr = .command k.code := by
  cases k <;> rfl

theorem decode_command_code (k : OutCmd) : decode (.command k.code) = .instr k.toInstr := by
  simp only [decode, decodeCommand_code]

theorem decode_event_eq_instr_iff {w : EventWord} {i : Instr} :
    decode (.event w) = .instr i ↔ decodeEvent w = .ok i := by
  cases h : decodeEvent w <;> simp [decode, h]

theorem decode_command_eq_instr {c : CommandCode} {i : Instr} (h : decode (.command c) = .instr i) :
    ∃ k : OutCmd, c = k.code ∧ i = k.toInstr := by
  cases hc : decodeCommand c with
  | none => simp [decode, hc] at h
  | some k => exact ⟨k, decodeCommand_eq_some_iff.mp hc, by simpa [decode, hc] using h.symm⟩

/-- An event word that decodes to an instruction is the encoder's word for it. -/
theorem encode_eq_event_of_decodeEvent {w : EventWord} {i : Instr} (h : decodeEvent w = .ok i) :
    encode i = .event w := by
  obtain ⟨rfl, rfl⟩ | ⟨rfl, rfl⟩ | ⟨b, rfl, rfl⟩ := decodeEvent_ok h <;> rfl

theorem decode_encode (i : Instr) : decode (encode i) = .instr i := by
  cases i with
  | reset => exact decode_event_eq_instr_iff.mpr decodeEvent_resetWord
  | arm => exact decode_event_eq_instr_iff.mpr decodeEvent_armWord
  | tick b => exact decode_event_eq_instr_iff.mpr (decodeEvent_tickWord b)
  | cmdNone => exact decode_command_code .none
  | cmdSetOff => exact decode_command_code .setOff
  | cmdToggle => exact decode_command_code .toggle

theorem encode_eq_of_decode {c : CodeWord} {i : Instr} (h : decode c = .instr i) : encode i = c := by
  cases c with
  | event w => exact encode_eq_event_of_decodeEvent (decode_event_eq_instr_iff.mp h)
  | command c =>
    obtain ⟨k, rfl, rfl⟩ := decode_command_eq_instr h
    exact encode_toInstr k

/-! ## The string of 3-bit words -/

theorem wordOfBits_bits (w : EventWord) : wordOfBits (w.getLsbD 2) (w.getLsbD 1) (w.getLsbD 0) = w := by
  revert w; decide

theorem joinWords_length (ws : List EventWord) : (joinWords ws).length = 3 * ws.length := by
  induction ws with
  | nil => rfl
  | cons w ws ih => simp [joinWords, EventWord.bits, ih]; omega

/-- Cutting a joined string into words of three bits gives the words back. -/
theorem splitWords_joinWords (ws : List EventWord) : splitWords (joinWords ws) = some ws := by
  induction ws with
  | nil => rfl
  | cons w ws ih =>
    rw [joinWords, EventWord.bits, List.cons_append, List.cons_append, List.cons_append, List.nil_append, splitWords, ih,
      wordOfBits_bits, Option.map_some]

theorem exists_decodeEvent_of_isEvent {i : Instr} (h : i.isEvent = true) : ∃ w, decodeEvent w = .ok i := by
  cases i with
  | reset => exact ⟨_, decodeEvent_resetWord⟩
  | arm => exact ⟨_, decodeEvent_armWord⟩
  | tick b => exact ⟨_, decodeEvent_tickWord b⟩
  | cmdNone | cmdSetOff | cmdToggle => cases h

/-- A program of events has one word per event, and these decode to it. -/
theorem encodeEvents_of_isEvent (is : List Instr) (h : ∀ i ∈ is, i.isEvent = true) :
    ∃ ws, encodeEvents is = some ws ∧ ws.length = is.length ∧ decodeEvents ws = .ok is := by
  induction is with
  | nil => exact ⟨[], rfl, rfl, rfl⟩
  | cons i is ih =>
    obtain ⟨hi, his⟩ := List.forall_mem_cons.mp h
    obtain ⟨w, hw⟩ := exists_decodeEvent_of_isEvent hi
    obtain ⟨ws, henc, hlen, hdec⟩ := ih his
    exact ⟨w :: ws, by simp [encodeEvents, encode_eq_event_of_decodeEvent hw, henc], by simp [hlen],
      by simp [decodeEvents, hw, hdec]⟩

/-! ## The statements -/

/-- Settles O4: the events' words decode to them, and joining the words loses none of their boundaries. -/
theorem eventStreamRoundTrips : Obligations.EventStreamRoundTrips := by
  intro is h
  obtain ⟨ws, henc, hlen, hdec⟩ := encodeEvents_of_isEvent is h
  exact ⟨ws, henc, hlen ▸ joinWords_length ws, splitWords_joinWords ws, hdec⟩

/-- Settles O3: the decoder is the encoder's inverse on both sides. -/
theorem encodingIsOneToOne : Obligations.EncodingIsOneToOne :=
  ⟨decode_encode, fun _ _ => encode_eq_of_decode⟩

/-- Settles O1: the four words of the events and the four reserved ones. -/
theorem eventWordsDecodeAsTabulated : Obligations.EventWordsDecodeAsTabulated :=
  ⟨decodeEvent_resetWord, decodeEvent_reservedBit (.inl rfl), decodeEvent_armWord, decodeEvent_reservedBit (.inr rfl),
    decodeEvent_tickWord false, decodeEvent_tickWord true, decodeEvent_reservedOp (.inl rfl),
    decodeEvent_reservedOp (.inr rfl)⟩

/-- Settles O2: the codes of the three commands, and `11`, which is none of them. -/
theorem commandCodesDecodeAsTabulated : Obligations.CommandCodesDecodeAsTabulated :=
  ⟨decode_command_code .none, decode_command_code .setOff, decode_command_code .toggle, rfl⟩

end Sys2Proof

namespace Sys2Proof.Machine

/-! ## A TICKS line -/

/-- The spelling of a sample in a TICKS line (R58). -/
def bitDigit (b : Bit) : Char := if b then '1' else '0'

/-- The samples of a TICKS line, one space before each digit (log entry 12). -/
def spacedDigits (bs : List Bit) : List Char := bs.flatMap fun b => [' ', bitDigit b]

theorem spacedDigits_cons (b : Bit) (bs : List Bit) : spacedDigits (b :: bs) = ' ' :: bitDigit b :: spacedDigits bs := rfl

theorem isBlank_bitDigit (b : Bit) : isBlank (bitDigit b) = false := by
  cases b <;> decide

theorem stripComment_of_notMem {l : List Char} (h : ';' ∉ l) : stripComment l = l := by
  induction l with
  | nil => rfl
  | cons c cs ih =>
    obtain ⟨hc, hcs⟩ : ';' ≠ c ∧ ';' ∉ cs := by simpa using h
    rw [stripComment, if_neg (Ne.symm hc), ih hcs]

theorem semicolon_notMem_spacedDigits (bs : List Bit) : ';' ∉ spacedDigits bs := by
  induction bs with
  | nil => decide
  | cons b bs ih => rw [spacedDigits_cons]; cases b <;> simp [bitDigit, ih]

/-- Each space ends the token before it, so every digit is a token of its own. -/
theorem tokensFrom_spacedDigits {cur : List Char} (hcur : cur ≠ []) (bs : List Bit) :
    tokensFrom cur (spacedDigits bs) = cur.reverse :: bs.map fun b => [bitDigit b] := by
  have hspace : isBlank ' ' = true := by decide
  induction bs generalizing cur with
  | nil => simp [spacedDigits, tokensFrom, hcur]
  | cons b bs ih =>
    simp [spacedDigits_cons, tokensFrom, hspace, isBlank_bitDigit, hcur, ih (cur := [bitDigit b])]

theorem digitsOfTokens_map_bitDigit (bs : List Bit) : digitsOfTokens (bs.map fun b => [bitDigit b]) = some bs := by
  induction bs with
  | nil => rfl
  | cons b bs ih => rw [List.map_cons, digitsOfTokens, ih]; cases b <;> rfl

/-- The tokens of a TICKS line are its mnemonic and its digits. -/
theorem tokensFrom_ticksLine (bs : List Bit) :
    tokensFrom [] (['T', 'I', 'C', 'K', 'S'] ++ spacedDigits bs) =
      ['T', 'I', 'C', 'K', 'S'] :: bs.map fun b => [bitDigit b] :=
  tokensFrom_spacedDigits (cur := ['S', 'K', 'C', 'I', 'T']) (by decide) bs

/-- Settles O5: the line has no comment, its tokens are TICKS and the digits, and these are read back as the samples. -/
theorem ticksLineExpandsToTicks : Obligations.TicksLineExpandsToTicks := by
  intro bs hne
  obtain ⟨b, bs, rfl⟩ := List.exists_cons_of_ne_nil hne
  have hstrip := stripComment_of_notMem (l := ['T', 'I', 'C', 'K', 'S'] ++ spacedDigits (b :: bs))
    (by simp [semicolon_notMem_spacedDigits])
  have hdigits := digitsOfTokens_map_bitDigit (b :: bs)
  rw [List.map_cons] at hdigits
  change assembleLine (['T', 'I', 'C', 'K', 'S'] ++ spacedDigits (b :: bs)) = _
  rw [assembleLine, hstrip, tokensFrom_ticksLine, List.map_cons]
  simp [hdigits, expandTicks]

end Sys2Proof.Machine
end

section
/-! Proofs of the statements on the step and its stops: what a step on the first pending arrival does (R114, R118), and what
the fault record holds after a stop (R107, R112, R113). -/

namespace Sys2Proof.Machine

/-! ## What an event answers, by what its word decodes to -/

theorem takeEvent_of_decodeEvent_ok {w : EventWord} {i : Instr} {s : State} (hlive : s.fault = .none)
    (hd : decodeEvent w = .ok i) : takeEvent w s = completeEvent (exec i s) := by
  simp only [takeEvent, whenLive_live hlive, hd]

theorem takeEvent_of_decodeEvent_error {w : EventWord} {r : RefuseReason} {s : State} (hlive : s.fault = .none)
    (hd : decodeEvent w = .error r) : takeEvent w s = refuse r w s := by
  simp only [takeEvent, whenLive_live hlive, hd]

/-- An event that has a next state leaves the fault record alone. -/
theorem takeEvent_next_fault {w : EventWord} {s t : State} (h : takeEvent w s = .next t) : t.fault = s.fault := by
  obtain ⟨-, ⟨-, rfl⟩ | ⟨-, -, rfl⟩ | ⟨i, -, -, rfl⟩⟩ := takeEvent_next h <;> simp

/-- A step with a next state started in a live state and leaves a live state. -/
theorem step_next_live {s t : State} (h : step s = .next t) : s.fault = .none ∧ t.fault = .none := by
  obtain ⟨hlive, -, rfl⟩ | ⟨a, rest, -, hevent⟩ := step_next h
  · exact ⟨hlive, hlive⟩
  · have hlive := (takeEvent_next hevent).1
    exact ⟨hlive, (takeEvent_next_fault hevent).trans hlive⟩

/-! ## The record of a stop -/

theorem settle_raise (code : FaultCode) (w : EventWord) (s u : State) :
    settle u (raise code w s) = u.record (.fault code s.eventIndex w) := by
  cases code <;> rfl

theorem settle_refuse (r : RefuseReason) (w : EventWord) (s u : State) :
    settle u (refuse r w s) = u.record (.refused r s.eventIndex w) := by
  cases r <;> rfl

theorem wellFormed_tickBeforeArm (i : Bit) (n : Nat) : (FaultRecord.fault .tickBeforeArm n (tickWord i)).wellFormed := by
  cases i <;> rfl

theorem wellFormed_reservedBit {w : EventWord} (h : w = 0b001#3 ∨ w = 0b011#3) (n : Nat) :
    (FaultRecord.refused .reservedBit n w).wellFormed := by
  obtain rfl | rfl := h <;> rfl

theorem wellFormed_reservedOp {w : EventWord} (h : w = 0b110#3 ∨ w = 0b111#3) (n : Nat) :
    (FaultRecord.refused .reservedOp n w).wellFormed := by
  obtain rfl | rfl := h <;> rfl

/-- A live block takes an event and has a next state, raises a code, or refuses the word; the record of a stop then fits
the word (R112). -/
theorem takeEvent_next_or_raise_or_refuse (w : EventWord) {s : State} (hlive : s.fault = .none) :
    (∃ t, takeEvent w s = .next t) ∨
    (∃ code, takeEvent w s = raise code w s ∧
      (FaultRecord.fault code s.eventIndex w).wellFormed = true) ∨
    (∃ reason, takeEvent w s = refuse reason w s ∧
      (FaultRecord.refused reason s.eventIndex w).wellFormed = true) := by
  obtain hnext | ⟨⟨i, rfl⟩, -, h⟩ | ⟨rfl, -, h⟩ | ⟨hw, h⟩ | ⟨hw, h⟩ := takeEvent_outcomes w hlive
  · exact .inl hnext
  · exact .inr (.inl ⟨.tickBeforeArm, h, wellFormed_tickBeforeArm i _⟩)
  · exact .inr (.inl ⟨.rearm, h, rfl⟩)
  · exact .inr (.inr ⟨.reservedBit, h, wellFormed_reservedBit hw _⟩)
  · exact .inr (.inr ⟨.reservedOp, h, wellFormed_reservedOp hw _⟩)

theorem raise_ne_refused (code : FaultCode) (w : EventWord) (s : State) (r : Refusal) :
    raise code w s ≠ .refused r := nofun

theorem refuse_ne_fault (reason : RefuseReason) (w : EventWord) (s : State) (f : Fault) :
    refuse reason w s ≠ .fault f := by
  cases reason <;> nofun

/-- An event that faults in a live state raises a code for its own word. -/
theorem takeEvent_fault {w : EventWord} {s : State} {f : Fault} (hlive : s.fault = .none)
    (h : takeEvent w s = .fault f) : ∃ code, takeEvent w s = raise code w s := by
  obtain ⟨t, ht⟩ | ⟨code, hraise, -⟩ | ⟨reason, hrefuse, -⟩ := takeEvent_next_or_raise_or_refuse w hlive
  · simp [h] at ht
  · exact ⟨code, hraise⟩
  · exact absurd (hrefuse.symm.trans h) (refuse_ne_fault reason w s f)

/-- An event that is refused in a live state is refused for its own word. -/
theorem takeEvent_refused {w : EventWord} {s : State} {r : Refusal} (hlive : s.fault = .none)
    (h : takeEvent w s = .refused r) : ∃ reason, takeEvent w s = refuse reason w s := by
  obtain ⟨t, ht⟩ | ⟨code, hraise, -⟩ | ⟨reason, hrefuse, -⟩ := takeEvent_next_or_raise_or_refuse w hlive
  · simp [h] at ht
  · exact absurd (hraise.symm.trans h) (raise_ne_refused code w s r)
  · exact ⟨reason, hrefuse⟩

/-! ## The statements on one step -/

/-- Settles O6: with the fault record clear and the word decoded, what is left of `takeEvent` is the event itself. -/
theorem stepRunsThePendingEvent : Obligations.StepRunsThePendingEvent := by
  intro s w rest i hlive hpending hd
  rw [step_event hpending]
  exact takeEvent_of_decodeEvent_ok hlive hd

/-- Settles O7: waiting is guarded by the fault record only. -/
theorem stepWaitsWithNothingPending : Obligations.StepWaitsWithNothingPending := by
  intro s hlive hpending
  rw [step_waits hpending, whenLive_live hlive]

/-- Settles O8: the word taken is RESET's, whatever the other is. -/
theorem resetWinsOverSimultaneousEvent : Obligations.ResetWinsOverSimultaneousEvent := by
  intro s other rest hlive hpending
  rw [step_event hpending]
  exact takeEvent_reset hlive

/-- Settles O9: a reserved word decodes to its reason, and a refusal leaves its mark alone. -/
theorem reservedWordsAreRefused : Obligations.ReservedWordsAreRefused := by
  intro s w rest hlive hpending
  have hstep : ∀ r, decodeEvent w = .error r → step s = refuse r w (s.withInputs rest) := fun r hd => by
    rw [step_event hpending]
    exact takeEvent_of_decodeEvent_error hlive hd
  refine ⟨fun hw => ?bit, fun hw => ?op⟩
  case bit => rw [hstep _ (decodeEvent_reservedBit hw)]; exact ⟨rfl, rfl⟩
  case op => rw [hstep _ (decodeEvent_reservedOp hw)]; exact ⟨rfl, rfl⟩

/-- Settles O11: a fault is a code raised, a refusal a reason given, each for the word taken and at the state's index. -/
theorem stopsRecordTheirEvent : Obligations.StopsRecordTheirEvent := by
  intro s a rest hlive hpending
  rw [step_event hpending]
  refine ⟨fun f hf => ?fault, fun r hr => ?refused⟩
  case fault =>
    obtain ⟨code, hraise⟩ := takeEvent_fault (by simpa using hlive) hf
    exact ⟨code, by rw [hraise, settle_raise]; rfl⟩
  case refused =>
    obtain ⟨reason, hrefuse⟩ := takeEvent_refused (by simpa using hlive) hr
    exact ⟨reason, by rw [hrefuse, settle_refuse]; rfl⟩

/-! ## The statements on every step -/

/-- An event taken in a live state leaves a record that fits: none after a next state, the stop's own otherwise. -/
theorem settle_takeEvent_wellFormed (w : EventWord) {s : State} (u : State) (hlive : s.fault = .none) :
    (settle u (takeEvent w s)).fault.wellFormed = true := by
  obtain ⟨t, ht⟩ | ⟨code, hraise, hfits⟩ | ⟨reason, hrefuse, hfits⟩ := takeEvent_next_or_raise_or_refuse w hlive
  · have hnone : t.fault = .none := (takeEvent_next_fault ht).trans hlive
    rw [ht, settle, hnone]; rfl
  · rwa [hraise, settle_raise]
  · rwa [hrefuse, settle_refuse]

/-- Settles O12: a faulted state keeps its record, a waiting step its whole state, and an event leaves a fitting record. -/
theorem faultRecordKeepsFittingWord : Obligations.FaultRecordKeepsFittingWord := by
  refine ⟨rfl, fun s hfits => ?_⟩
  by_cases hlive : s.fault = .none
  case neg => rwa [step_of_faulted hlive, settle_stuck]
  case pos =>
    cases hpending : s.inputs with
    | nil => rwa [step_waits hpending, whenLive_live hlive]
    | cons a rest => rw [step_event hpending]; exact settle_takeEvent_wellFormed a.taken s (by simpa using hlive)

/-- The guard raises nothing but `stuck`. -/
theorem whenLive_ne_overlap {s : State} {o : Host.Outcome State Fault Refusal} {n : Nat} {w : EventWord}
    (h : o ≠ .fault (.overlap n w)) : whenLive s o ≠ .fault (.overlap n w) := by
  by_cases hlive : s.fault = .none
  · rwa [whenLive_live hlive]
  · rw [whenLive_faulted hlive]; nofun

/-- Of the six meanings only ARM and TICK raise a code, and theirs are REARM and TICK_BEFORE_ARM. -/
theorem exec_ne_overlap (i : Instr) (s : State) (n : Nat) (w : EventWord) : exec i s ≠ .fault (.overlap n w) := by
  cases i with
  | reset | cmdNone | cmdSetOff | cmdToggle => exact whenLive_ne_overlap nofun
  | arm | tick =>
    refine whenLive_ne_overlap ?_
    split <;> nofun

theorem completeEvent_fault {o : Host.Outcome State Fault Refusal} {f : Fault} (h : completeEvent o = .fault f) :
    o = .fault f := by
  cases o with
  | next | refused => cases h
  | fault => exact h

theorem takeEvent_ne_overlap (v : EventWord) (s : State) (n : Nat) (w : EventWord) :
    takeEvent v s ≠ .fault (.overlap n w) := by
  refine whenLive_ne_overlap ?_
  cases decodeEvent v with
  | error r => exact refuse_ne_fault r v s _
  | ok i => exact fun h => exec_ne_overlap i s n w (completeEvent_fault h)

/-- Settles O13: no meaning raises OVERLAP, and the step adds the guard and the refusals only. -/
theorem atomicMachineNeverOverlaps : Obligations.AtomicMachineNeverOverlaps := by
  refine fun s n w => ⟨fun i => exec_ne_overlap i s n w, ?_⟩
  cases hpending : s.inputs with
  | nil => rw [step_waits hpending]; exact whenLive_ne_overlap nofun
  | cons a rest => rw [step_event hpending]; exact takeEvent_ne_overlap a.taken (s.withInputs rest) n w

end Sys2Proof.Machine
end

section
/-! Proofs of the statements on RESET, ARM and TICK from a live state (R64, R98 to R103), with the boot order (R134) and the
next-state table (R82). -/

namespace Sys2Proof.Machine

/-! ## What RESET and ARM answer -/

theorem exec_reset_of_live {s : State} (hlive : s.fault = .none) : exec .reset s = .next (s.clearBits.drive .none) :=
  whenLive_live hlive _

theorem exec_arm_of_unarmed {s : State} (hlive : s.fault = .none) (hunarmed : s.armed = false) :
    exec .arm s = .next ((s.setArmed true).drive .none) := by
  simp [exec, execArm, hlive, hunarmed]

theorem exec_arm_of_armed {s : State} (hlive : s.fault = .none) (harmed : s.armed = true) :
    exec .arm s = .fault (.rearm s.eventIndex armWord) := by
  simp [exec, execArm, hlive, harmed, raise, FaultCode.toFault]

/-! ## The statements -/

/-- Settles O14: `State.reset` is that record. -/
theorem resetStateIsSilent : Obligations.ResetStateIsSilent :=
  ⟨rfl, rfl, rfl, rfl, rfl, rfl, rfl, rfl, rfl⟩

/-- Settles O15: the bits are cleared and NONE keeps the cleared level. -/
theorem resetClearsTheBlock : Obligations.ResetClearsTheBlock :=
  fun _ hlive => exec_reset_of_live hlive

/-- Settles O16: the bit is set and NONE keeps the level. -/
theorem armSetsArmed : Obligations.ArmSetsArmed :=
  fun _ hlive hunarmed => exec_arm_of_unarmed hlive hunarmed

/-- Settles O17: REARM carries the index and ARM's word, and its record is all that is written. -/
theorem secondArmFaults : Obligations.SecondArmFaults := by
  intro s hlive harmed
  rw [exec_arm_of_armed hlive harmed]
  exact ⟨rfl, rfl⟩

/-- Settles O20: TICK_BEFORE_ARM carries the index and the TICK's word, and its record is all that is written. -/
theorem unarmedTickFaults : Obligations.UnarmedTickFaults := by
  intro s i hlive hunarmed
  rw [exec_tick_of_unarmed i hlive hunarmed]
  exact ⟨rfl, rfl⟩

/-! ## The boot order -/

theorem runEvents_reset {s : State} (hlive : s.fault = .none) (ws : List EventWord) :
    runEvents (resetWord :: ws) s = (runEvents ws (s.clearBits.drive .none).countEvent).prepend (.none, false) :=
  runEvents_next (takeEvent_reset hlive) ws

theorem runEvents_arm {s : State} (hlive : s.fault = .none) (hunarmed : s.armed = false) (ws : List EventWord) :
    runEvents (armWord :: ws) s =
      (runEvents ws ((s.setArmed true).drive .none).countEvent).prepend (.none, s.outLevel) :=
  runEvents_next (takeEvent_arm hlive hunarmed) ws

theorem runEvents_tick {s : State} (i : Bit) (hlive : s.fault = .none) (harmed : s.armed = true)
    (ws : List EventWord) :
    runEvents (tickWord i :: ws) s = (runEvents ws (onTick i s).countEvent).prepend (onTick i s).observation :=
  runEvents_next (takeEvent_tick i hlive harmed) ws

theorem runEvents_tick_unarmed {s : State} (i : Bit) (hlive : s.fault = .none) (hunarmed : s.armed = false)
    (ws : List EventWord) :
    runEvents (tickWord i :: ws) s =
      { observed := [], last := s.record (.fault .tickBeforeArm s.eventIndex (tickWord i)) } := by
  have hfault := takeEvent_tick_unarmed i hlive hunarmed
  rw [runEvents_stop (by simp [hfault]), hfault]
  rfl

/-- RESET, ARM, TICK: each event finds the state it needs (R134). -/
theorem runEvents_reset_arm_tick {s : State} (i : Bit) (hlive : s.fault = .none) :
    (runEvents [resetWord, armWord, tickWord i] s).endsWell = true ∧
    (runEvents [resetWord, armWord, tickWord i] s).last.armed = true := by
  rw [runEvents_reset hlive, runEvents_arm (by simpa using hlive) rfl, runEvents_tick i (by simpa using hlive) rfl]
  simp [RunResult.endsWell, hlive]

/-- RESET, TICK: RESET leaves the block unarmed and has counted as one event (R103; log entry 2). -/
theorem runEvents_reset_tick {s : State} (i : Bit) (hlive : s.fault = .none) :
    runEvents [resetWord, tickWord i] s =
      { observed := [(.none, false)]
        last := (s.clearBits.drive .none).countEvent.record (.fault .tickBeforeArm (s.eventIndex + 1) (tickWord i)) } := by
  rw [runEvents_reset hlive, runEvents_tick_unarmed i (by simpa using hlive) rfl]
  rfl

/-- Settles O18: RESET leaves an unarmed live block, on which ARM runs and TICK faults. -/
theorem bootOrderIsEnforced : Obligations.BootOrderIsEnforced := by
  intro s i hlive
  obtain ⟨hwell, harmed⟩ := runEvents_reset_arm_tick i hlive
  have hfaults := runEvents_reset_tick i hlive
  exact ⟨hwell, harmed, congrArg RunResult.observed hfaults, congrArg (·.last.fault) hfaults⟩

/-! ## The next-state table -/

/-- The right half of a row of the table, computed from its left half by the steps of a TICK (R66 to R71). -/
def tickRow (p t o i : Bit) : Bit × Bit × Bit × OutCmd :=
  let edge := risingEdge p i
  let en := flipTone t edge
  (i, en, commandLevel (tickCommand edge en) o, tickCommand edge en)

/-- A TICK writes the row of the state's bits and its sample. -/
theorem onTick_eq_tickRow (i : Bit) (s : State) :
    onTick i s =
      { s with
        prevIn := (tickRow s.prevIn s.toneEn s.outLevel i).1
        toneEn := (tickRow s.prevIn s.toneEn s.outLevel i).2.1
        outLevel := (tickRow s.prevIn s.toneEn s.outLevel i).2.2.1
        outCmd := (tickRow s.prevIn s.toneEn s.outLevel i).2.2.2 } := rfl

/-- Every row of the table of R82 agrees with the steps. -/
theorem tickTable_follows_steps :
    ∀ row ∈ tickTable, row.2 = tickRow row.1.1 row.1.2.1 row.1.2.2.1 row.1.2.2.2 := by decide

theorem tickTable_complete : ∀ p t o i : Bit, ∃ row ∈ tickTable, row.1 = (p, t, o, i) := by decide

/-- Settles O27: a row's right half is what the steps write from its left half, and no left half is missing. -/
theorem tickTableHolds : Obligations.TickTableHolds := by
  refine ⟨fun row hrow s hlive harmed hbits => ?_, fun s i => tickTable_complete ..⟩
  simp only [Prod.mk.injEq] at hbits
  obtain ⟨hprev, htone, hlevel⟩ := hbits
  rw [exec_tick_of_armed _ hlive harmed, onTick_eq_tickRow, tickTable_follows_steps row hrow, hprev, htone, hlevel]

end Sys2Proof.Machine
end

section
/-! Proofs of the statements on the output commands: their effect (R93 to R95), the events that drive them, and what a
command and an event leave unchanged. -/

namespace Sys2Proof.Machine

/-! ## A command as an operation of its own -/

/-- Each of the three commands runs through the output port (log entry 6). -/
theorem exec_toInstr_of_live {s : State} (c : OutCmd) (hlive : s.fault = .none) :
    exec c.toInstr s = .next (s.drive c) := by
  cases c <;> exact whenLive_live hlive _

/-- An instruction that is no event is one of the three commands. -/
theorem exists_toInstr_of_not_isEvent {i : Instr} (h : i.isEvent = false) : ∃ c : OutCmd, i = c.toInstr := by
  cases i with
  | reset | arm | tick => cases h
  | cmdNone => exact ⟨.none, rfl⟩
  | cmdSetOff => exact ⟨.setOff, rfl⟩
  | cmdToggle => exact ⟨.toggle, rfl⟩

theorem toInstr_eq_cmdNone_iff (c : OutCmd) : c.toInstr = .cmdNone ↔ c = .none := by
  cases c <;> simp [OutCmd.toInstr]

/-- A command has a next state only in a live state, and then it is what it drives. -/
theorem exec_toInstr_next {c : OutCmd} {s t : State} (h : exec c.toInstr s = .next t) : t = s.drive c := by
  by_cases hlive : s.fault = .none
  · simpa [exec_toInstr_of_live c hlive] using h.symm
  · simp [exec_of_faulted hlive] at h

theorem drive_setOff_idempotent (s : State) : (s.drive .setOff).drive .setOff = s.drive .setOff := rfl

theorem drive_toggle_involutive (s : State) : (s.drive .toggle).drive .toggle = { s with outCmd := .toggle } := by
  simp [State.drive]

/-! ## The events that drive a command -/

theorem tickCommand_eq_none_iff (edge en : Bit) : tickCommand edge en = .none ↔ en = false ∧ edge = false := by
  cases en <;> cases edge <;> simp [tickCommand]

theorem onTick_outCmd_eq_none_iff (i : Bit) (s : State) :
    (onTick i s).outCmd = .none ↔ (onTick i s).toneEn = false ∧ risingEdge s.prevIn i = false :=
  tickCommand_eq_none_iff _ _

theorem tickWord_ne_resetWord (i : Bit) : tickWord i ≠ resetWord := by
  cases i <;> decide

theorem tickWord_ne_armWord (i : Bit) : tickWord i ≠ armWord := by
  cases i <;> decide

/-- RESET and ARM always drive NONE, a TICK where neither its step 3 nor its step 4 issues a command. -/
theorem takeEvent_next_outCmd_eq_none_iff {w : EventWord} {s t : State} (h : takeEvent w s = .next t) :
    t.outCmd = .none ↔
      (w = resetWord ∨ w = armWord ∨ ∃ i, w = tickWord i ∧ t.toneEn = false ∧ risingEdge s.prevIn i = false) := by
  obtain ⟨-, ⟨rfl, rfl⟩ | ⟨rfl, -, rfl⟩ | ⟨i, rfl, -, rfl⟩⟩ := takeEvent_next h
  · simp
  · simp
  · simp only [State.countEvent_outCmd, State.countEvent_toneEn, onTick_outCmd_eq_none_iff, tickWord_ne_resetWord,
      tickWord_ne_armWord, false_or]
    exact ⟨fun hoff => ⟨i, rfl, hoff⟩, fun ⟨j, hij, hoff⟩ => tickWord_injective hij ▸ hoff⟩

/-- A command other than NONE is driven by a TICK. -/
theorem takeEvent_next_tick_of_outCmd_ne_none {w : EventWord} {s t : State} (h : takeEvent w s = .next t)
    (hcmd : t.outCmd ≠ .none) : ∃ i, w = tickWord i ∧ s.armed = true ∧ t = (onTick i s).countEvent := by
  obtain ⟨-, ⟨-, rfl⟩ | ⟨-, -, rfl⟩ | htick⟩ := takeEvent_next h
  · simp at hcmd
  · simp at hcmd
  · exact htick

/-! ## The statements on the commands -/

/-- Settles O28: NONE keeps the level it drives on. -/
theorem noneLeavesTheLine : Obligations.NoneLeavesTheLine :=
  ⟨rfl, fun _ hlive => exec_toInstr_of_live .none hlive, fun _ _ _ h => takeEvent_next_outCmd_eq_none_iff h⟩

/-- Settles O29: SET_OFF drives level 0, and of the events only a TICK's step 3 issues it. -/
theorem setOffForcesLineOff : Obligations.SetOffForcesLineOff := by
  refine ⟨rfl, fun s hlive => exec_toInstr_of_live .setOff hlive, fun w s t h hcmd => ?_⟩
  obtain ⟨i, rfl, -, rfl⟩ := takeEvent_next_tick_of_outCmd_ne_none h (by simp [hcmd])
  exact ⟨i, rfl, (onTick_outCmd_eq_setOff_iff i s).mp hcmd⟩

/-- Settles O30: TOGGLE drives the inverse level, and of the events only a TICK's step 4 issues it. -/
theorem toggleInvertsLine : Obligations.ToggleInvertsLine := by
  refine ⟨rfl, fun s hlive => exec_toInstr_of_live .toggle hlive, fun w s t h hcmd => ?_⟩
  obtain ⟨i, rfl, -, rfl⟩ := takeEvent_next_tick_of_outCmd_ne_none h (by simp [hcmd])
  exact ⟨i, rfl, (onTick_outCmd_eq_toggle_iff i s).mp hcmd⟩

/-- Settles O31: the level 0 is a fixed point of SET_OFF, and negating a level twice restores it. -/
theorem setOffIdempotentToggleInvolutive : Obligations.SetOffIdempotentToggleInvolutive := by
  intro s hlive
  have hrun (c : OutCmd) : exec c.toInstr (s.drive c) = .next ((s.drive c).drive c) := exec_toInstr_of_live c hlive
  refine ⟨⟨s.drive .setOff, exec_toInstr_of_live .setOff hlive, rfl, ?setOff⟩,
    ⟨s.drive .toggle, exec_toInstr_of_live .toggle hlive, ?toggle⟩⟩
  case setOff => exact drive_setOff_idempotent s ▸ hrun .setOff
  case toggle => exact drive_toggle_involutive s ▸ hrun .toggle

/-! ## The frames -/

/-- Settles O32: each event's next state is given by its own writes, and the rest stays. -/
theorem eventsFrame : Obligations.EventsFrame := by
  intro i s t hevent h
  cases i with
  | reset =>
    obtain ⟨-, rfl⟩ := execReset_next h
    simp
  | arm =>
    obtain ⟨-, -, rfl⟩ := execArm_next h
    simp
  | tick b =>
    obtain ⟨-, -, rfl⟩ := execTick_next h
    simp
  | cmdNone | cmdSetOff | cmdToggle => cases hevent

/-- Settles O33: a command writes the port and the level only, and NONE's level is the one before. -/
theorem commandsFrame : Obligations.CommandsFrame := by
  intro i s t hcommand h
  obtain ⟨c, rfl⟩ := exists_toInstr_of_not_isEvent hcommand
  obtain rfl := exec_toInstr_next h
  refine ⟨rfl, rfl, rfl, rfl, rfl, rfl, fun hnone => ?_⟩
  rw [(toInstr_eq_cmdNone_iff c).mp hnone, State.drive_outLevel, commandLevel_none]

/-- Settles O34: the guard of R111 stands before the commands too, and the stuck outcome records nothing. -/
theorem faultedBlockDrivesNoCommand : Obligations.FaultedBlockDrivesNoCommand := by
  intro i s _ hfaulted
  rw [exec_of_faulted hfaulted]
  exact ⟨rfl, settle_stuck s⟩

end Sys2Proof.Machine
end

section
/-! Proofs of the statements on what a step may change: the tone (R25, R84), the line (R19, R96, R97) and `armed` (R20),
with the bits of the status word (R62). -/

namespace Sys2Proof.Machine

/-- A step that does not keep the state took an event. -/
theorem step_next_event_of_ne {s t : State} (h : step s = .next t) (hne : t ≠ s) :
    ∃ a rest, s.inputs = a :: rest ∧ takeEvent a.taken (s.withInputs rest) = .next t := by
  obtain ⟨-, -, hwait⟩ | hevent := step_next h
  · exact absurd hwait hne
  · exact hevent

/-- An event that changes the tone is a TICK with a rising edge on an armed block, or RESET, which leaves the tone off. -/
theorem takeEvent_next_toneEn_ne {w : EventWord} {s t : State} (h : takeEvent w s = .next t)
    (hne : t.toneEn ≠ s.toneEn) :
    (w = tickWord true ∧ s.armed = true ∧ s.prevIn = false) ∨ (w = resetWord ∧ t.toneEn = false) := by
  obtain ⟨-, ⟨hw, rfl⟩ | ⟨-, -, rfl⟩ | ⟨i, rfl, harmed, rfl⟩⟩ := takeEvent_next h
  · exact .inr ⟨hw, rfl⟩
  · simp at hne
  · by_cases hedge : risingEdge s.prevIn i = true
    · obtain ⟨hprev, rfl⟩ := (risingEdge_eq_true_iff s.prevIn i).mp hedge
      exact .inl ⟨rfl, harmed, hprev⟩
    · exact absurd (onTick_toneEn_of_not_edge hedge) hne

/-- TICK 1 with `prev_in` at 0 flips the tone. -/
theorem takeEvent_tick_true_flips {s t : State} (h : takeEvent (tickWord true) s = .next t) (hprev : s.prevIn = false) :
    t.toneEn = !s.toneEn := by
  obtain ⟨-, ⟨hw, -⟩ | ⟨hw, -⟩ | ⟨i, hw, -, rfl⟩⟩ := takeEvent_next h
  · exact absurd hw (tickWord_ne_resetWord true)
  · exact absurd hw (tickWord_ne_armWord true)
  · obtain rfl := tickWord_injective hw
    exact onTick_toneEn_of_edge ((risingEdge_eq_true_iff ..).mpr ⟨hprev, rfl⟩)

/-- Settles O35: waiting keeps the tone, and an event changes it by an edge or by RESET. -/
theorem toneChangesOnlyOnEdgeOrReset : Obligations.ToneChangesOnlyOnEdgeOrReset := by
  intro s t h
  refine ⟨fun hne => ?changes, fun a rest hpending htaken hprev => ?flips⟩
  case changes =>
    obtain ⟨a, rest, hpending, hevent⟩ := step_next_event_of_ne h (fun heq => hne (heq ▸ rfl))
    exact ⟨a, rest, hpending, takeEvent_next_toneEn_ne (s := s.withInputs rest) hevent hne⟩
  case flips =>
    rw [step_event hpending, htaken] at h
    exact takeEvent_tick_true_flips (s := s.withInputs rest) h hprev

/-- A TICK whose level differs from the one before drove TOGGLE or SET_OFF, and SET_OFF leaves 0. -/
theorem onTick_outLevel_ne {i : Bit} {s : State} (hne : (onTick i s).outLevel ≠ s.outLevel) :
    (onTick i s).outCmd = .toggle ∨ ((onTick i s).outCmd = .setOff ∧ (onTick i s).outLevel = false) := by
  have hlevel := onTick_outLevel i s
  cases hcmd : (onTick i s).outCmd with
  | none => exact absurd (by rw [hlevel, hcmd, commandLevel_none]) hne
  | setOff => exact .inr ⟨rfl, by rw [hlevel, hcmd, commandLevel_setOff]⟩
  | toggle => exact .inl rfl

/-- Settles O37: ARM and a waiting step keep the level, RESET clears it, and a TICK changes it by its command. -/
theorem lineRisesOnlyByToggle : Obligations.LineRisesOnlyByToggle := by
  intro s t h hne
  obtain ⟨a, rest, hpending, hevent⟩ := step_next_event_of_ne h (fun heq => hne (heq ▸ rfl))
  refine ⟨a, rest, hpending, ?_⟩
  obtain ⟨-, ⟨hw, rfl⟩ | ⟨-, -, rfl⟩ | ⟨i, hw, -, rfl⟩⟩ := takeEvent_next hevent
  · exact .inr (.inr ⟨rfl, rfl, hw⟩)
  · simp at hne
  · obtain htoggle | ⟨hsetOff, hlow⟩ := onTick_outLevel_ne hne
    · cases hlevel : (onTick i (s.withInputs rest)).outLevel with
      | true => exact .inl ⟨hlevel, htoggle, i, hw⟩
      | false => exact .inr (.inl ⟨hlevel, .inl htoggle, i, hw⟩)
    · exact .inr (.inl ⟨hlow, .inr hsetOff, i, hw⟩)

/-- An event that changes `armed` is ARM, which sets it, or RESET, which clears it. -/
theorem takeEvent_next_armed_ne {w : EventWord} {s t : State} (h : takeEvent w s = .next t) (hne : t.armed ≠ s.armed) :
    (w = armWord ∧ t.armed = true) ∨ (w = resetWord ∧ t.armed = false) := by
  obtain ⟨-, ⟨hw, rfl⟩ | ⟨hw, -, rfl⟩ | ⟨i, -, -, rfl⟩⟩ := takeEvent_next h
  · exact .inr ⟨hw, rfl⟩
  · exact .inl ⟨hw, rfl⟩
  · simp at hne

/-- Settles O38: the value that `armed` takes tells which of the two events wrote it. -/
theorem armedChangesOnlyByArmAndReset : Obligations.ArmedChangesOnlyByArmAndReset := by
  intro s t h
  have hcause (hne : t.armed ≠ s.armed) : ∃ a rest, s.inputs = a :: rest ∧
      ((a.taken = armWord ∧ t.armed = true) ∨ (a.taken = resetWord ∧ t.armed = false)) := by
    obtain ⟨a, rest, hpending, hevent⟩ := step_next_event_of_ne h (fun heq => hne (heq ▸ rfl))
    exact ⟨a, rest, hpending, takeEvent_next_armed_ne hevent hne⟩
  refine ⟨fun hbefore hafter => ?set, fun hbefore hafter => ?cleared⟩
  case set =>
    obtain ⟨a, rest, hpending, ⟨hw, -⟩ | ⟨-, hclear⟩⟩ := hcause (by simp [hbefore, hafter])
    · exact ⟨a, rest, hpending, hw⟩
    · simp [hafter] at hclear
  case cleared =>
    obtain ⟨a, rest, hpending, ⟨-, hset⟩ | ⟨hw, -⟩⟩ := hcause (by simp [hbefore, hafter])
    · simp [hafter] at hset
    · exact ⟨a, rest, hpending, hw⟩

/-- Settles O40: each bit is read out of the concatenation. -/
theorem statusWordBits : Obligations.StatusWordBits := by
  intro s
  simp only [State.status, BitVec.getLsbD_append, BitVec.getLsbD_ofBool]
  simp

end Sys2Proof.Machine
end

section
/-! Proofs of the statements on runs: what a run shows and where it ends (R144), what it depends on (R90), the trace checker
(R54), and the step iterated on the pending arrivals (R46, R118). -/

namespace Sys2Proof.Machine

/-! ## Where a run ends well -/

theorem RunResult.endsWell_iff (r : RunResult) : r.endsWell = true ↔ r.last.fault = .none := by
  simp [RunResult.endsWell]

/-- A stop of a live block sets the fault record. -/
theorem settle_takeEvent_fault_ne_none {w : EventWord} {s : State} (u : State) (hlive : s.fault = .none)
    (hstop : ∀ t, takeEvent w s ≠ .next t) : (settle u (takeEvent w s)).fault ≠ .none := by
  obtain ⟨t, ht⟩ | ⟨code, hraise, -⟩ | ⟨reason, hrefuse, -⟩ := takeEvent_next_or_raise_or_refuse w hlive
  · exact absurd ht (hstop t)
  · simp [hraise, settle_raise]
  · simp [hrefuse, settle_refuse]

/-- A run from a live state that stops at its first event does not end well. -/
theorem runEvents_stop_not_endsWell {w : EventWord} {s : State} (hlive : s.fault = .none)
    (hstop : ∀ t, takeEvent w s ≠ .next t) (ws : List EventWord) : ¬(runEvents (w :: ws) s).endsWell = true := by
  rw [RunResult.endsWell_iff, runEvents_stop hstop]
  exact settle_takeEvent_fault_ne_none s hlive hstop

/-- Settles O44: each event that completes adds one observation, and a stop ends the run with events left over. -/
theorem runObservesEveryEventOrStops : Obligations.RunObservesEveryEventOrStops := by
  intro ws
  induction ws with
  | nil => intro s hlive; simp [RunResult.endsWell_iff, hlive]
  | cons w ws ih =>
    intro s hlive
    by_cases hnext : ∃ t, takeEvent w s = .next t
    case pos =>
      obtain ⟨t, ht⟩ := hnext
      simpa [runEvents_next ht] using ih t ((takeEvent_next_fault ht).trans hlive)
    case neg =>
      have hstop := not_exists.mp hnext
      have hbad := runEvents_stop_not_endsWell hlive hstop ws
      rw [runEvents_stop hstop] at hbad ⊢
      simp [hbad]

/-! ## What an event reads -/

/-- The state with another last command on the port and other arrivals to come: the two fields that no event reads. -/
def State.withPort (s : State) (c : OutCmd) (l : List Arrival) : State := { s with outCmd := c, inputs := l }

/-- An outcome with the arrivals of its next state replaced. -/
def outcomeWithInputs (l : List Arrival) (o : Host.Outcome State Fault Refusal) : Host.Outcome State Fault Refusal :=
  match o with
  | .next t => .next (t.withInputs l)
  | .fault f => .fault f
  | .refused r => .refused r

theorem takeEvent_arm_armed {s : State} (hlive : s.fault = .none) (harmed : s.armed = true) :
    takeEvent armWord s = .fault (.rearm s.eventIndex armWord) := by
  rw [takeEvent_of_decodeEvent_ok hlive decodeEvent_armWord, exec_arm_of_armed hlive harmed]
  rfl

/-- Every event drives a command of its own, so what it answers does not depend on the port or on what is pending (R90). -/
theorem takeEvent_withPort (w : EventWord) (s : State) (c : OutCmd) (l : List Arrival) :
    takeEvent w (s.withPort c l) = outcomeWithInputs l (takeEvent w s) := by
  by_cases hlive : s.fault = .none
  case neg =>
    rw [takeEvent_of_faulted hlive, takeEvent_of_faulted (s := s.withPort c l) hlive]
    rfl
  case pos =>
    have hlive' : (s.withPort c l).fault = .none := hlive
    cases hd : decodeEvent w with
    | error r =>
      rw [takeEvent_of_decodeEvent_error hlive hd, takeEvent_of_decodeEvent_error hlive' hd]
      cases r <;> rfl
    | ok i =>
      obtain ⟨rfl, -⟩ | ⟨rfl, -⟩ | ⟨b, rfl, -⟩ := decodeEvent_ok hd
      · rw [takeEvent_reset hlive, takeEvent_reset hlive']; rfl
      · cases ha : s.armed with
        | false => rw [takeEvent_arm hlive ha, takeEvent_arm hlive' ha]; rfl
        | true => rw [takeEvent_arm_armed hlive ha, takeEvent_arm_armed hlive' ha]; rfl
      · cases ha : s.armed with
        | false => rw [takeEvent_tick_unarmed b hlive ha, takeEvent_tick_unarmed b hlive' ha]; rfl
        | true => rw [takeEvent_tick b hlive ha, takeEvent_tick b hlive' ha]; rfl

theorem takeEvent_withInputs (w : EventWord) (s : State) (l : List Arrival) :
    takeEvent w (s.withInputs l) = outcomeWithInputs l (takeEvent w s) :=
  takeEvent_withPort w s s.outCmd l

/-! ## A run reads the block and the event index -/

/-- Two states with the same block and event index differ in the port and the arrivals only. -/
theorem State.SameBlock.eq_withPort {s t : State} (h : s.SameBlock t) (hindex : s.eventIndex = t.eventIndex) :
    t = s.withPort t.outCmd t.inputs := by
  obtain ⟨harmed, hprev, htone, hlevel, hfault⟩ := h
  rw [State.withPort, harmed, hprev, htone, hlevel, hfault, hindex]

theorem State.sameBlock_withPort (s : State) (c : OutCmd) (l : List Arrival) : s.SameBlock (s.withPort c l) :=
  ⟨rfl, rfl, rfl, rfl, rfl⟩

/-- The same stop leaves the same block behind, whatever the port and the arrivals are. -/
theorem State.sameBlock_recordStop_withPort (s : State) (c : OutCmd) (l : List Arrival) (r : Option FaultRecord) :
    (s.recordStop r).SameBlock ((s.withPort c l).recordStop r) := by
  cases r <;> exact ⟨rfl, rfl, rfl, rfl, rfl⟩

theorem runEvents_withPort (ws : List EventWord) (s : State) (c : OutCmd) (l : List Arrival) :
    (runEvents ws s).observed = (runEvents ws (s.withPort c l)).observed ∧
    (runEvents ws s).last.SameBlock (runEvents ws (s.withPort c l)).last := by
  induction ws generalizing s c with
  | nil => exact ⟨rfl, s.sameBlock_withPort c l⟩
  | cons w ws ih =>
    have hport := takeEvent_withPort w s c l
    cases ho : takeEvent w s with
    | next t =>
      rw [ho] at hport
      obtain ⟨hobserved, hlast⟩ := ih t t.outCmd
      rw [runEvents_next ho, runEvents_next hport]
      exact ⟨congrArg (t.observation :: ·) hobserved, hlast⟩
    | fault f =>
      rw [ho] at hport
      rw [runEvents_stop (by simp [ho]), runEvents_stop (by simp [hport, outcomeWithInputs]), ho, hport]
      exact ⟨rfl, s.sameBlock_recordStop_withPort c l f.toRecord⟩
    | refused r =>
      rw [ho] at hport
      rw [runEvents_stop (by simp [ho]), runEvents_stop (by simp [hport, outcomeWithInputs]), ho, hport]
      exact ⟨rfl, s.sameBlock_recordStop_withPort c l r.toRecord⟩

/-- Settles O43: the port and the arrivals are all that may differ, and no event reads them. -/
theorem runDependsOnBitsAndEvents : Obligations.RunDependsOnBitsAndEvents := by
  intro ws s t hblock hindex
  rw [hblock.eq_withPort hindex]
  exact runEvents_withPort ws s t.outCmd t.inputs

/-! ## The trace checker -/

theorem traceOf_next {w : EventWord} {s t : State} (h : takeEvent w s = .next t) (ws : List EventWord) :
    traceOf (w :: ws) s = { word := w, code := t.outCmd.code, level := t.outLevel } :: traceOf ws t := by
  simp only [traceOf, h]

theorem traceOf_stop {w : EventWord} {s : State} (h : ∀ t, takeEvent w s ≠ .next t) (ws : List EventWord) :
    traceOf (w :: ws) s = [] := by
  cases ho : takeEvent w s with
  | next t => exact absurd ho (h t)
  | fault | refused => simp only [traceOf, ho]

/-- A row passes where its event has a next state that shows the row's code and level (R54). -/
theorem checkTrace_cons_iff (r : TraceRow) (rs : List TraceRow) (s : State) :
    checkTrace (r :: rs) s = true ↔
      ∃ t, takeEvent r.word s = .next t ∧ r.code = t.outCmd.code ∧ r.level = t.outLevel ∧ checkTrace rs t = true := by
  cases ho : takeEvent r.word s with
  | next t => simp [checkTrace, ho, decodeCommand_eq_some_iff, and_assoc]
  | fault | refused => simp [checkTrace, ho]

theorem code_ne_reserved (c : OutCmd) : c.code ≠ 0b11#2 := by
  cases c <;> decide

theorem checkTrace_traceOf (ws : List EventWord) (s : State) : checkTrace (traceOf ws s) s = true := by
  induction ws generalizing s with
  | nil => rfl
  | cons w ws ih =>
    by_cases hnext : ∃ t, takeEvent w s = .next t
    case pos =>
      obtain ⟨t, ht⟩ := hnext
      rw [traceOf_next ht, checkTrace_cons_iff]
      exact ⟨t, ht, rfl, rfl, ih t⟩
    case neg => rw [traceOf_stop (not_exists.mp hnext)]; rfl

theorem eq_traceOf_of_checkTrace (rows : List TraceRow) (s : State) (h : checkTrace rows s = true) :
    rows = traceOf (rows.map (·.word)) s ∧ ∀ r ∈ rows, r.code ≠ 0b11#2 := by
  induction rows generalizing s with
  | nil => exact ⟨rfl, nofun⟩
  | cons r rs ih =>
    obtain ⟨t, ht, hcode, hlevel, hrest⟩ := (checkTrace_cons_iff r rs s).mp h
    obtain ⟨htrace, hlegal⟩ := ih t hrest
    refine ⟨?_, List.forall_mem_cons.mpr ⟨hcode ▸ code_ne_reserved t.outCmd, hlegal⟩⟩
    rw [List.map_cons, traceOf_next ht, ← htrace, ← hcode, ← hlevel]

/-- Settles O45: the checker replays the events, so a row it passes is the row the run shows. -/
theorem traceCheckerAcceptsExactlyRuns : Obligations.TraceCheckerAcceptsExactlyRuns :=
  ⟨checkTrace_traceOf, eq_traceOf_of_checkTrace⟩

/-! ## The step iterated on the pending arrivals -/

theorem coreRun_zero_eq_next_iff (s t : State) : Host.Core.run Sys2Proof.core 0 s = .next t ↔ s = t :=
  ⟨fun h => by injection h, fun h => h ▸ rfl⟩

theorem coreRun_succ_of_next {s t : State} (h : step s = .next t) (n : Nat) :
    Host.Core.run Sys2Proof.core (n + 1) s = Host.Core.run Sys2Proof.core n t := by
  have hcore : Sys2Proof.core.step s = .next t := h
  simp only [Host.Core.run, hcore]

theorem coreRun_succ_ne_next_of_stop {s : State} (h : ∀ t, step s ≠ .next t) (n : Nat) (u : State) :
    Host.Core.run Sys2Proof.core (n + 1) s ≠ .next u := by
  cases ho : step s with
  | next t => exact absurd ho (h t)
  | fault | refused =>
    have hcore : Sys2Proof.core.step s = _ := ho
    simp only [Host.Core.run, hcore]
    nofun

theorem step_withInputs_cons (a : Arrival) (l : List Arrival) (s : State) :
    step (s.withInputs (a :: l)) = outcomeWithInputs l (takeEvent a.taken s) := by
  rw [step_event rfl, State.withInputs_withInputs, takeEvent_withInputs]

theorem outcomeWithInputs_ne_next {o : Host.Outcome State Fault Refusal} (h : ∀ t, o ≠ .next t) (l : List Arrival)
    (u : State) : outcomeWithInputs l o ≠ .next u := by
  cases o with
  | next t => exact absurd rfl (h t)
  | fault | refused => nofun

/-- Settles O46: a step takes the first arrival's word and leaves the others pending, which the event does not read. -/
theorem stepRunIsEventRun : Obligations.StepRunIsEventRun := by
  intro l
  induction l with
  | nil =>
    intro s t hlive
    rw [List.length_nil, coreRun_zero_eq_next_iff]
    simp [RunResult.endsWell_iff, hlive]
  | cons a l ih =>
    intro s t hlive
    have hstep := step_withInputs_cons a l s
    have hevent := takeEvent_withInputs a.taken s []
    by_cases hnext : ∃ u, takeEvent a.taken s = .next u
    case pos =>
      obtain ⟨u, hu⟩ := hnext
      rw [hu] at hstep hevent
      rw [List.length_cons, coreRun_succ_of_next hstep, List.map_cons, runEvents_next hevent]
      exact ih u t ((takeEvent_next_fault hu).trans hlive)
    case neg =>
      have hstop := not_exists.mp hnext
      have hrun := coreRun_succ_ne_next_of_stop (hstep ▸ outcomeWithInputs_ne_next hstop l) l.length t
      have hbad := runEvents_stop_not_endsWell (s := s.withInputs []) hlive (hevent ▸ outcomeWithInputs_ne_next hstop [])
        (l.map Arrival.taken)
      exact iff_of_false hrun fun hwell => hbad hwell.1

end Sys2Proof.Machine
end

section
/-! Proofs of the statements on the block's invariant (R23, R24), the states reachable from reset (R135, D20), and the runs
of ticks without an edge (R86, R87). -/

namespace Sys2Proof.Machine

/-! ## Every event keeps the invariant -/

/-- The invariant speaks of the bits and the port only. -/
theorem State.BlockInv.withInputs {s : State} (h : s.BlockInv) (l : List Arrival) : (s.withInputs l).BlockInv :=
  ⟨h.levelNeedsTone, h.unarmedQuiet, h.toneToggles, h.offWhileOff⟩

theorem State.BlockInv.countEvent {s : State} (h : s.BlockInv) : s.countEvent.BlockInv :=
  ⟨h.levelNeedsTone, h.unarmedQuiet, h.toneToggles, h.offWhileOff⟩

theorem blockInv_reset (s : State) : (s.clearBits.drive .none).BlockInv where
  levelNeedsTone := nofun
  unarmedQuiet _ := ⟨rfl, rfl, rfl⟩
  toneToggles := by simp
  offWhileOff := nofun

/-- ARM finds an unarmed block, which the invariant makes silent, and leaves it silent. -/
theorem State.BlockInv.arm {s : State} (h : s.BlockInv) (hunarmed : s.armed = false) :
    ((s.setArmed true).drive .none).BlockInv := by
  obtain ⟨-, htone, hlevel⟩ := h.unarmedQuiet hunarmed
  exact ⟨by simp [hlevel], by simp, by simp [htone], by simp⟩

/-- A TICK that drives SET_OFF has sampled 1, disabled the tone and put the line at 0 (R68). -/
theorem onTick_of_setOff {i : Bit} {s : State} (hcmd : (onTick i s).outCmd = .setOff) :
    (onTick i s).prevIn = true ∧ (onTick i s).toneEn = false ∧ (onTick i s).outLevel = false := by
  obtain ⟨hedge, hoff⟩ := (onTick_outCmd_eq_setOff_iff i s).mp hcmd
  exact ⟨((risingEdge_eq_true_iff ..).mp hedge).2, hoff, by rw [onTick_outLevel, hcmd, commandLevel_setOff]⟩

/-- A TICK that leaves the tone off leaves the line low: SET_OFF forced it, or it was low before (R24). -/
theorem State.BlockInv.onTick_outLevel_low {i : Bit} {s : State} (h : s.BlockInv) (hoff : (onTick i s).toneEn = false) :
    (onTick i s).outLevel = false := by
  by_cases hedge : risingEdge s.prevIn i = true
  · exact (onTick_of_setOff ((onTick_outCmd_eq_setOff_iff i s).mpr ⟨hedge, hoff⟩)).2.2
  · have htone : s.toneEn = false := (onTick_toneEn_of_not_edge hedge).symm.trans hoff
    have hcmd := (onTick_outCmd_eq_none_iff i s).mpr ⟨hoff, eq_false_of_ne_true hedge⟩
    have hlow : ¬s.outLevel = true := mt h.levelNeedsTone (by simp [htone])
    rw [onTick_outLevel, hcmd, commandLevel_none, eq_false_of_ne_true hlow]

theorem State.BlockInv.onTick {i : Bit} {s : State} (h : s.BlockInv) (harmed : s.armed = true) :
    (onTick i s).BlockInv where
  levelNeedsTone hhigh := by
    cases hen : (Machine.onTick i s).toneEn with
    | true => rfl
    | false => simp [h.onTick_outLevel_low hen] at hhigh
  unarmedQuiet hunarmed := by simp [harmed] at hunarmed
  toneToggles := onTick_outCmd_eq_toggle_iff i s
  offWhileOff := onTick_of_setOff

theorem State.BlockInv.takeEvent {w : EventWord} {s t : State} (h : s.BlockInv) (ht : takeEvent w s = .next t) :
    t.BlockInv := by
  obtain ⟨-, ⟨-, rfl⟩ | ⟨-, hunarmed, rfl⟩ | ⟨i, -, harmed, rfl⟩⟩ := takeEvent_next ht
  · exact (blockInv_reset s).countEvent
  · exact (h.arm hunarmed).countEvent
  · exact (h.onTick harmed).countEvent

/-- Settles O48: a step waits and keeps the state, or takes one of the three events. -/
theorem stepKeepsBlockInv : Obligations.StepKeepsBlockInv := by
  intro s t h hstep
  obtain ⟨-, -, rfl⟩ | ⟨a, rest, -, hevent⟩ := step_next hstep
  · exact h
  · exact (h.withInputs rest).takeEvent hevent

/-- Settles O47: the reset state is the one RESET produces. -/
theorem blockInvHoldsAtReset : Obligations.BlockInvHoldsAtReset :=
  fun l => (blockInv_reset State.reset).withInputs l

/-! ## The reachable states -/

theorem ResetReachable.blockInv {s : State} (h : ResetReachable s) : s.BlockInv := by
  induction h with
  | start l => exact blockInvHoldsAtReset l
  | event _ hstep ih => exact stepKeepsBlockInv _ _ ih hstep

theorem ResetReachable.live {s : State} (h : ResetReachable s) : s.fault = .none := by
  cases h with
  | start l => rfl
  | event _ hstep => exact (step_next_live hstep).2

/-- A state has a name where its line is not high with the tone off (R23). -/
theorem State.BlockInv.named_isSome {s : State} (h : s.BlockInv) : s.named.isSome = true := by
  cases hlevel : s.outLevel with
  | true => simp [State.named, hlevel, h.levelNeedsTone hlevel]
  | false => cases htone : s.toneEn <;> simp [State.named, hlevel, htone]

/-- Settles O49: reset has the invariant and every step keeps it. -/
theorem reachableHighLineMeansTone : Obligations.ReachableHighLineMeansTone :=
  fun _ h => ⟨h.blockInv.levelNeedsTone, h.blockInv.named_isSome, h.live, h.blockInv⟩

/-- Steps from a reachable state come to reachable states. -/
theorem ResetReachable.coreRun {n : Nat} {s t : State} (h : ResetReachable s)
    (hrun : Host.Core.run Sys2Proof.core n s = .next t) : ResetReachable t := by
  induction n generalizing s with
  | zero => exact (coreRun_zero_eq_next_iff s t).mp hrun ▸ h
  | succ n ih =>
    by_cases hnext : ∃ u, step s = .next u
    case pos =>
      obtain ⟨u, hu⟩ := hnext
      rw [coreRun_succ_of_next hu] at hrun
      exact ih (h.event hu) hrun
    case neg => exact absurd hrun (coreRun_succ_ne_next_of_stop (not_exists.mp hnext) n t)

/-- A run of event words from reset that ends well ends in a reachable state: its words are presented as the arrivals. -/
theorem resetReachable_of_endsWell {ws : List EventWord} (hwell : (runEvents ws State.reset).endsWell = true) :
    ResetReachable (runEvents ws State.reset).last := by
  have htaken : (ws.map Arrival.word).map Arrival.taken = ws := by simp [Function.comp_def, Arrival.taken]
  have hrun := stepRunIsEventRun (ws.map Arrival.word) State.reset (runEvents ws State.reset).last rfl
  rw [htaken] at hrun
  exact (ResetReachable.start _).coreRun (hrun.mpr ⟨hwell, rfl⟩)

/-- The seven status words of the states reachable from reset. -/
def reachableStatusWordList : List StatusWord :=
  [0b0000#4, 0b1000#4, 0b1010#4, 0b1100#4, 0b1101#4, 0b1110#4, 0b1111#4]

/-- Programs from reset that end in them: nothing, ARM alone, and ARM followed by ticks. -/
def statusPrograms : List (List EventWord) :=
  [[], [armWord]] ++ [[true, false, true], [true, false], [true, false, false], [true, true], [true]].map
    fun samples => armWord :: samples.map tickWord

/-- The programs of the list reach every one of the seven words. -/
theorem statusPrograms_reach : ∀ w ∈ reachableStatusWordList, ∃ ws ∈ statusPrograms,
    (runEvents ws State.reset).endsWell = true ∧ (runEvents ws State.reset).last.status = w := by decide

/-- The bits of a state with the invariant are those of one of the seven words. -/
theorem State.BlockInv.status_mem {s : State} (h : s.BlockInv) : s.status ∈ reachableStatusWordList := by
  have hbits : ∀ a t p o : Bit, (o = true → t = true) → (a = false → p = false ∧ t = false ∧ o = false) →
      (BitVec.ofBool a ++ BitVec.ofBool t ++ BitVec.ofBool p ++ BitVec.ofBool o : StatusWord) ∈
        reachableStatusWordList := by decide
  exact hbits _ _ _ _ h.levelNeedsTone h.unarmedQuiet

/-- Settles O50: the invariant leaves seven words, and a program reaches each of them. -/
theorem reachableStatusWords : Obligations.ReachableStatusWords := by
  refine fun w => ⟨fun ⟨s, hreach, hstatus⟩ => hstatus ▸ hreach.blockInv.status_mem, fun hw => ?_⟩
  obtain ⟨ws, -, hwell, hstatus⟩ := statusPrograms_reach w hw
  exact ⟨_, resetReachable_of_endsWell hwell, hstatus⟩

/-! ## Runs of ticks without an edge -/

theorem risingEdge_false (prevIn : Bit) : ¬risingEdge prevIn false = true := by
  simp [risingEdge]

/-- A TICK 0 is no edge, so it keeps the tone. -/
theorem onTick_false_toneEn (s : State) : (onTick false s).toneEn = s.toneEn :=
  onTick_toneEn_of_not_edge (risingEdge_false s.prevIn)

/-- With the tone off a TICK 0 issues nothing. -/
theorem onTick_false_outCmd_of_toneOff {s : State} (hoff : s.toneEn = false) : (onTick false s).outCmd = .none :=
  (onTick_outCmd_eq_none_iff false s).mpr
    ⟨(onTick_false_toneEn s).trans hoff, eq_false_of_ne_true (risingEdge_false s.prevIn)⟩

/-- No run of TICK 0 events changes the tone, wherever it starts and stops (R86). -/
theorem runEvents_replicate_tick_false_toneEn (n : Nat) (s : State) :
    (runEvents (List.replicate n (tickWord false)) s).last.toneEn = s.toneEn := by
  induction n generalizing s with
  | zero => rfl
  | succ n ih =>
    by_cases hlive : s.fault = .none
    case neg => rw [runEvents_of_faulted hlive]
    case pos =>
      cases harmed : s.armed with
      | true =>
        rw [List.replicate_succ, runEvents_tick false hlive harmed, RunResult.prepend_last, ih]
        exact onTick_false_toneEn s
      | false => rw [List.replicate_succ, runEvents_tick_unarmed false hlive harmed]; rfl

/-- On an armed silent block every TICK 0 drives NONE and keeps the low line. -/
theorem runEvents_replicate_tick_false_armed (n : Nat) {s : State} (hlive : s.fault = .none) (harmed : s.armed = true)
    (hoff : s.toneEn = false) (hlow : s.outLevel = false) :
    (runEvents (List.replicate n (tickWord false)) s).observed = List.replicate n (.none, false) ∧
    (runEvents (List.replicate n (tickWord false)) s).last.outLevel = false := by
  induction n generalizing s with
  | zero => exact ⟨rfl, hlow⟩
  | succ n ih =>
    have hcmd := onTick_false_outCmd_of_toneOff hoff
    have hlevel : (onTick false s).outLevel = false := by rw [onTick_outLevel, hcmd, commandLevel_none, hlow]
    obtain ⟨hobserved, hlast⟩ := ih (s := (onTick false s).countEvent) hlive harmed
      ((onTick_false_toneEn s).trans hoff) hlevel
    rw [List.replicate_succ, runEvents_tick false hlive harmed, RunResult.prepend_observed, hobserved,
      State.observation, hcmd, hlevel]
    exact ⟨rfl, hlast⟩

/-- On an unarmed block the first TICK 0 stops the run and keeps the line. -/
theorem runEvents_replicate_tick_false_unarmed (n : Nat) {s : State} (hlive : s.fault = .none)
    (hunarmed : s.armed = false) :
    (runEvents (List.replicate n (tickWord false)) s).observed = [] ∧
    (runEvents (List.replicate n (tickWord false)) s).last.outLevel = s.outLevel := by
  cases n with
  | zero => exact ⟨rfl, rfl⟩
  | succ n =>
    rw [List.replicate_succ, runEvents_tick_unarmed false hlive hunarmed]
    exact ⟨rfl, rfl⟩

/-- Settles O41: a reachable silent block is live with the line low; armed it ticks silently, unarmed it stops at once. -/
theorem silentTicksStaySilent : Obligations.SilentTicksStaySilent := by
  refine ⟨fun n s hreach hoff => ?_, runEvents_replicate_tick_false_toneEn⟩
  have hlow : s.outLevel = false := eq_false_of_ne_true (mt hreach.blockInv.levelNeedsTone (by simp [hoff]))
  have htone := (runEvents_replicate_tick_false_toneEn n s).trans hoff
  cases harmed : s.armed with
  | true =>
    obtain ⟨hobserved, hlast⟩ := runEvents_replicate_tick_false_armed n hreach.live harmed hoff hlow
    exact ⟨fun o ho => List.eq_of_mem_replicate (hobserved ▸ ho), fun _ => hobserved, htone, hlast⟩
  | false =>
    obtain ⟨hobserved, hlast⟩ := runEvents_replicate_tick_false_unarmed n hreach.live harmed
    exact ⟨fun o ho => absurd (hobserved ▸ ho) List.not_mem_nil, nofun, htone, hlast.trans hlow⟩

/-- What `n` enabled ticks show from a level: TOGGLE each time, the line after the k-th being the level XOR (k mod 2). -/
def alternation (level : Bit) (n : Nat) : List (OutCmd × Bit) :=
  (List.range n).map fun k => (.toggle, xor level (decide ((k + 1) % 2 = 1)))

theorem alternation_succ (level : Bit) (n : Nat) :
    alternation level (n + 1) = (.toggle, !level) :: alternation (!level) n := by
  have hparity (k : Nat) : decide ((k + 1 + 1) % 2 = 1) = !decide ((k + 1) % 2 = 1) := by
    rw [← decide_not, decide_eq_decide]
    omega
  simp [alternation, List.range_succ_eq_map, Function.comp_def, hparity]

/-- Settles O42: without an edge the tone stays on, so each tick toggles, from the level that the one before it left. -/
theorem enabledTicksAlternateTheLine : Obligations.EnabledTicksAlternateTheLine := by
  intro bs
  change ∀ s : State, _ → _ → _ → _ → (runEvents (bs.map tickWord) s).observed = alternation s.outLevel bs.length ∧ _
  induction bs with
  | nil => intro s hlive _ hon _; exact ⟨rfl, hon, by simp [RunResult.endsWell_iff, hlive]⟩
  | cons b bs ih =>
    intro s hlive harmed hon hedges
    obtain ⟨hedge, hrest⟩ : risingEdge s.prevIn b = false ∧ noEdges b bs = true := by simpa [noEdges] using hedges
    have hstays : (onTick b s).toneEn = true := (onTick_toneEn_of_not_edge (by simp [hedge])).trans hon
    have hcmd := (onTick_outCmd_eq_toggle_iff b s).mpr hstays
    have hlevel : (onTick b s).outLevel = !s.outLevel := by rw [onTick_outLevel, hcmd, commandLevel_toggle]
    obtain ⟨hobserved, hlast, hwell⟩ := ih (onTick b s).countEvent hlive harmed hstays hrest
    rw [List.map_cons, runEvents_tick b hlive harmed, List.length_cons, alternation_succ, RunResult.prepend_observed,
      hobserved, State.observation, hcmd, State.countEvent_outLevel, hlevel]
    exact ⟨rfl, hlast, hwell⟩

end Sys2Proof.Machine
end

section
/-! Proofs of the statements on the split machine (R110, R136; log entry 9): running an invocation's steps to its end gives
the atomic TICK, and an invocation that begins before that faults with OVERLAP. -/

namespace Sys2Proof.Machine

/-! ## The invocation in progress, run to its end -/

/-- The given number of steps run, one after the other. -/
def advanceTicks : Nat → SplitState → SplitState
  | 0, m => m
  | n + 1, m => advanceTicks n (advanceTick m)

/-- The block as the remaining steps of the invocation in progress leave it. -/
def SplitState.completed (m : SplitState) : State := (advanceTicks m.phase.stepsLeft m).base

theorem completed_of_idle {m : SplitState} (hidle : m.phase = .idle) : m.completed = m.base := by
  rw [SplitState.completed, TickPhase.stepsLeft_eq_zero.mpr hidle]
  rfl

theorem advanceTick_of_idle {m : SplitState} (hidle : m.phase = .idle) : advanceTick m = m := by
  simp only [advanceTick, hidle]

/-- Letting a step run brings the invocation nearer to the same end. -/
theorem completed_advanceTick (m : SplitState) : (advanceTick m).completed = m.completed := by
  rw [SplitState.completed, advanceTick_stepsLeft]
  cases hleft : m.phase.stepsLeft with
  | zero => rw [advanceTick_of_idle (TickPhase.stepsLeft_eq_zero.mp hleft), SplitState.completed, hleft]
  | succ n => rw [SplitState.completed, hleft, advanceTicks, Nat.add_sub_cancel]

/-- Where NONE already stands on the port, driving NONE changes nothing. -/
theorem drive_none_of_outCmd_eq_none {s : State} (hport : s.outCmd = .none) : s.drive .none = s := by
  rw [State.drive, commandLevel_none, ← hport]

/-- Steps 3 and 4 drive at most one command, since their conditions exclude each other (R74). -/
theorem advanceTick_forceOff_toggle {u : State} (cur edge : Bit) (hport : u.outCmd = .none) :
    advanceTick (advanceTick ⟨u, .forceOff cur edge⟩) = ⟨u.drive (tickCommand edge u.toneEn), .remember cur⟩ := by
  cases hen : u.toneEn with
  | true => simp [advanceTick, tickCommand, hen]
  | false => cases edge <;> simp [advanceTick, tickCommand, hen, drive_none_of_outCmd_eq_none hport]

/-- The five steps of an invocation, one at a time, write what the atomic TICK writes (R66 to R73). -/
theorem completed_begun (b : State) (level : Bit) :
    SplitState.completed { base := { b with outCmd := .none }, phase := .detect level } = (onTick level b).countEvent := by
  let edge := risingEdge b.prevIn level
  have hsteps := advanceTick_forceOff_toggle
    (u := { b with outCmd := .none, toneEn := flipTone b.toneEn edge }) level edge rfl
  exact congrArg (fun m => (advanceTick m).base) hsteps

/-- Step 5 alone counts the event (log entry 9). -/
theorem advanceTick_eventIndex (m : SplitState) :
    (advanceTick m).base.eventIndex = m.base.eventIndex + if m.phase.stepsLeft = 1 then 1 else 0 := by
  obtain ⟨b, ph⟩ := m
  cases ph with
  | idle | detect | remember => rfl
  | forceOff | toggle =>
    simp only [advanceTick]
    split <;> rfl

/-- An invocation in progress is one event short of being counted (log entry 9). -/
theorem completed_eventIndex {m : SplitState} (hbusy : m.phase ≠ .idle) :
    m.completed.eventIndex = m.base.eventIndex + 1 := by
  obtain ⟨n, hleft⟩ := Nat.exists_eq_succ_of_ne_zero (mt TickPhase.stepsLeft_eq_zero.mp hbusy)
  clear hbusy
  rw [← completed_advanceTick]
  induction n generalizing m with
  | zero =>
    have hdone : (advanceTick m).phase.stepsLeft = 0 := by rw [advanceTick_stepsLeft, hleft]
    rw [completed_of_idle (TickPhase.stepsLeft_eq_zero.mp hdone), advanceTick_eventIndex, hleft, if_pos rfl]
  | succ n ih =>
    rw [← completed_advanceTick, ih (by rw [advanceTick_stepsLeft, hleft]; rfl), advanceTick_eventIndex, hleft,
      if_neg (by omega)]

/-! ## Schedules -/

theorem runSplit_next {e : SplitEvent} {m m' : SplitState} (h : splitStep e m = .next m') (es : List SplitEvent) :
    runSplit (e :: es) m = runSplit es m' := by
  simp only [runSplit, h]

theorem runSplit_fault {e : SplitEvent} {m : SplitState} {f : Fault} (h : splitStep e m = .fault f)
    (es : List SplitEvent) : runSplit (e :: es) m = .fault f := by
  simp only [runSplit, h]

theorem splitStep_advance {m : SplitState} (hlive : m.base.fault = .none) :
    splitStep .advance m = .next (advanceTick m) := by
  simp [splitStep, hlive]

/-- A schedule without overlap runs to its end from a live armed block. It has the steps left that the schedule says, and the
invocation in progress, run to its end, leaves what the atomic ticks of the samples leave. -/
theorem runSplit_of_nonOverlapping (es : List SplitEvent) {m : SplitState} (hlive : m.base.fault = .none)
    (harmed : m.base.armed = true) (hsched : nonOverlapping m.phase.stepsLeft es = true) :
    ∃ m', runSplit es m = .next m' ∧ m'.base.fault = .none ∧
      m'.phase.stepsLeft = stepsLeftAfter m.phase.stepsLeft es ∧
      m'.completed = (runEvents ((samplesOf es).map tickWord) m.completed).last := by
  induction es generalizing m with
  | nil => exact ⟨m, rfl, hlive, rfl, rfl⟩
  | cons e es ih =>
    cases e with
    | begin level =>
      obtain ⟨hleft, hrest⟩ : m.phase.stepsLeft = 0 ∧ nonOverlapping 4 es = true := by
        simpa [nonOverlapping] using hsched
      have hidle := TickPhase.stepsLeft_eq_zero.mp hleft
      rw [runSplit_next (e := .begin level) (beginTick_idle level hlive hidle harmed), samplesOf, List.map_cons,
        completed_of_idle hidle, runEvents_tick level hlive harmed, RunResult.prepend_last, ← completed_begun]
      exact ih hlive harmed hrest
    | advance =>
      rw [runSplit_next (splitStep_advance hlive), samplesOf, stepsLeftAfter, ← completed_advanceTick,
        ← advanceTick_stepsLeft]
      exact ih (by simpa using hlive) (by simpa using harmed) (by simpa [nonOverlapping] using hsched)

/-- A schedule with an overlap faults with OVERLAP, in which the word is that of a TICK. -/
theorem runSplit_of_overlapping (es : List SplitEvent) {m : SplitState} (hlive : m.base.fault = .none)
    (harmed : m.base.armed = true) (hsched : nonOverlapping m.phase.stepsLeft es = false) :
    ∃ n i, runSplit es m = .fault (.overlap n (tickWord i)) := by
  induction es generalizing m with
  | nil => cases hsched
  | cons e es ih =>
    cases e with
    | begin level =>
      by_cases hidle : m.phase = .idle
      case neg => exact ⟨_, level, runSplit_fault (e := .begin level) (beginTick_overlaps level hlive hidle) es⟩
      case pos =>
        rw [runSplit_next (e := .begin level) (beginTick_idle level hlive hidle harmed)]
        exact ih hlive harmed (by simpa [nonOverlapping, TickPhase.stepsLeft, hidle] using hsched)
    | advance =>
      rw [runSplit_next (splitStep_advance hlive)]
      exact ih (by simpa using hlive) (by simpa using harmed) (by simpa [nonOverlapping] using hsched)

/-- Settles O51: where no steps are left, the invocation run to its end is the state itself. -/
theorem splitTicksRefineAtomicTicks : Obligations.SplitTicksRefineAtomicTicks := by
  intro es s hlive harmed
  refine ⟨fun hsched => runSplit_of_overlapping es (m := ⟨s, .idle⟩) hlive harmed hsched, fun hsched => ?_⟩
  obtain ⟨m, hrun, -, hleft, hcompleted⟩ := runSplit_of_nonOverlapping es (m := ⟨s, .idle⟩) hlive harmed hsched
  refine ⟨m, hrun, hleft, fun hdone => ?_⟩
  rw [← completed_of_idle (TickPhase.stepsLeft_eq_zero.mp (hleft.trans hdone)), hcompleted]
  rfl

/-! ## The record of an overlap -/

/-- What an overlap leaves: the record alone, and no later event of any schedule has a step (R107, R111). -/
theorem splitAfter_overlap (m : SplitState) (n : Nat) (w : EventWord) (es : List SplitEvent) :
    splitAfter es (splitSettle m (.fault (.overlap n w))) = { m with base := m.base.record (.fault .overlap n w) } :=
  splitAfter_faulted (by simp [splitSettle, Fault.toRecord]) es

/-- Settles O52: the invocation in progress makes the new one fault, and the record makes the machine stuck. -/
theorem overlappingTickFaultsAndSticks : Obligations.OverlappingTickFaultsAndSticks := by
  intro m i hlive hbusy
  rw [beginTick_overlaps i hlive hbusy]
  exact ⟨rfl, rfl, rfl, fun es => splitAfter_overlap m _ _ es⟩

theorem runSplit_append {pre : List SplitEvent} {m m' : SplitState} (h : runSplit pre m = .next m')
    (es : List SplitEvent) :
    runSplit (pre ++ es) m = runSplit es m' ∧ splitAfter (pre ++ es) m = splitAfter es m' := by
  induction pre generalizing m with
  | nil => cases h; exact ⟨rfl, rfl⟩
  | cons e pre ih =>
    cases hstep : splitStep e m with
    | next u =>
      rw [runSplit_next hstep] at h
      rw [List.cons_append, runSplit_next hstep, splitAfter, hstep]
      exact ih h
    | fault | refused => simp [runSplit, hstep] at h

/-- Every TICK of an armed live block completes and is counted. -/
theorem runEvents_ticks_eventIndex (bs : List Bit) {s : State} (hlive : s.fault = .none) (harmed : s.armed = true) :
    (runEvents (bs.map tickWord) s).last.eventIndex = s.eventIndex + bs.length := by
  induction bs generalizing s with
  | nil => rfl
  | cons b bs ih =>
    rw [List.map_cons, runEvents_tick b hlive harmed, RunResult.prepend_last,
      ih (s := (onTick b s).countEvent) hlive harmed, State.countEvent_eventIndex, onTick_eventIndex, List.length_cons]
    omega

/-- Settles O53: the state before the overlap has counted every invocation but the one in progress, which is one more. -/
theorem overlapRecordsItsPosition : Obligations.OverlapRecordsItsPosition := by
  intro pre post i s hlive harmed hsched hleft
  obtain ⟨m, hrun, hmlive, hmleft, hcompleted⟩ :=
    runSplit_of_nonOverlapping pre (m := ⟨s, .idle⟩) hlive harmed hsched
  have hbusy : m.phase ≠ .idle := fun hidle => hleft (hmleft.symm.trans (TickPhase.stepsLeft_eq_zero.mpr hidle))
  have hindex : m.base.eventIndex + 1 = s.eventIndex + (samplesOf pre).length := by
    rw [← completed_eventIndex hbusy, hcompleted, completed_of_idle rfl]
    exact runEvents_ticks_eventIndex _ hlive harmed
  have hover : splitStep (.begin i) m = .fault (.overlap (s.eventIndex + (samplesOf pre).length) (tickWord i)) :=
    hindex ▸ beginTick_overlaps i hmlive hbusy
  obtain ⟨hrunAll, hafterAll⟩ := runSplit_append hrun (.begin i :: post)
  rw [hrunAll, hafterAll, runSplit_fault hover, splitAfter, hover, splitAfter_overlap]
  exact ⟨rfl, rfl⟩

end Sys2Proof.Machine
end
